-- ==== Sys2Proof/Word.lean ====
section
/-! DEFINITION. Word.lean: the bit-vector types of 00_scope.md R9. -/

namespace Sys2Proof

/-- `Bit` of R9. -/
abbrev Bit := BitVec 1

/-- `Nibble` of R9. -/
abbrev Nibble := BitVec 4

/-- `Addr7` of R9: a bus slave address. -/
abbrev Addr7 := BitVec 7

/-- `Byte` of R9. -/
abbrev Byte := BitVec 8

end Sys2Proof
end

