-- ==== Sys2Proof/Syntax.lean ====
section
/-! DEFINITION. Syntax.lean: the instructions, one constructor for each row of the opcode table.

The operands of the seven requests are the numbers of the request's record (30_encoding.md R48): the host may give one that
lies outside its type, which the port then refuses (R51). The command families (R54) and the pseudo-instructions (R62) hold
bit fields, so every value of theirs spells a code. -/

namespace Sys2Proof

inductive Instr where
  /-- `bt.init sel[, clk]` (R69); `none` is an absent clock. -/
  | btInit (sel : Nat) (clk : Option Nat)
  /-- `bt.write addr, [b0, ...]` (R75). -/
  | btWrite (addr : Nat) (data : List Nat)
  /-- `eb.nibble nib, rs, rw, bl` (R85). -/
  | ebNibble (nib rs rw bl : Nat)
  /-- `lc.init sel[, clk]` (R93). -/
  | lcInit (sel : Nat) (clk : Option Nat)
  /-- `lc.cmd code` (R97). -/
  | lcCmd (code : Nat)
  /-- `lc.putc ch` (R103). -/
  | lcPutc (ch : Nat)
  /-- `lc.puts text` (R104). -/
  | lcPuts (text : List Nat)
  /-- A request whose header is reserved, 0x07..0xFF (R50). -/
  | reserved (header : Byte)
  /-- `lc.cmd 0x00`, of no family (R125). -/
  | cmdNone
  /-- CLEAR_DISPLAY (R114); `lc.clear` is `asmClear`. -/
  | clearDisplay
  /-- RETURN_HOME, codes 0x02 and 0x03 (R115); bit 0 is not used. `lc.home` is the code 0x02, `asmHome`. -/
  | returnHome (unused : Bit)
  /-- ENTRY_MODE_SET (R122). -/
  | entryModeSet (increment shift : Bit)
  /-- DISPLAY_CONTROL (R119). -/
  | displayControl (d c b : Bit)
  /-- CURSOR_SHIFT (R123); bits 1..0 are not used. -/
  | cursorShift (shiftDisplay right : Bit) (unused : BitVec 2)
  /-- FUNCTION_SET with DL = 0 (R116); bits 1..0 are not used. -/
  | functionSet4 (n f : Bit) (unused : BitVec 2)
  /-- FUNCTION_SET with DL = 1 (R117); bits 1..0 are not used. -/
  | functionSet8 (n f : Bit) (unused : BitVec 2)
  /-- SET_CGRAM_ADDR (R124). -/
  | setCgramAddr (a : BitVec 6)
  /-- SET_DDRAM_ADDR (R118). -/
  | setDdramAddr (a : BitVec 7)
  /-- The pseudo-instruction `lc.fset dl, n, f` (R62). -/
  | lcFset (dl n f : Bit)
  /-- The pseudo-instruction `lc.dctl d, c, b` (R62). -/
  | lcDctl (d c b : Bit)
  /-- The pseudo-instruction `lc.line1 off`, off in 0..63 (R120). -/
  | lcLine1 (off : BitVec 6)
  /-- The pseudo-instruction `lc.line2 off`, off in 0..63 (R121). -/
  | lcLine2 (off : BitVec 6)
  deriving DecidableEq, Repr

end Sys2Proof
end

