-- ==== Sys2Proof/Decode.lean ====
section
/-! DEFINITION. Decode.lean: command codes and their families (30_encoding.md R53 to R62), the listing form of a request
(R68): its decoder, total on any bytes, and its encoder; the host's table words. -/

namespace Sys2Proof

/-! ### Command codes, written field by field from the patterns of R54 -/

/-- CLEAR_DISPLAY, `00000001` (R59). -/
def clearDisplayCode : Byte := 0x01

/-- RETURN_HOME, `0000001x` (R59). -/
def returnHomeCode (unused : Bit) : Byte := 0b0000001#7 ++ unused

/-- ENTRY_MODE_SET, `000001IS` (R54). -/
def entryModeSetCode (increment shift : Bit) : Byte := 0b000001#6 ++ increment ++ shift

/-- DISPLAY_CONTROL, `00001DCB` (R57). -/
def displayControlCode (d c b : Bit) : Byte := 0b00001#5 ++ d ++ c ++ b

/-- CURSOR_SHIFT, `0001SRxx` (R54). -/
def cursorShiftCode (shiftDisplay right : Bit) (unused : BitVec 2) : Byte := 0b0001#4 ++ shiftDisplay ++ right ++ unused

/-- FUNCTION_SET, `001DNFxx` with D the bit DL (R56). -/
def functionSetCode (dl n f : Bit) (unused : BitVec 2) : Byte := 0b001#3 ++ dl ++ n ++ f ++ unused

/-- SET_CGRAM_ADDR, `01AAAAAA` (R54). -/
def setCgramAddrCode (a : BitVec 6) : Byte := 0b01#2 ++ a

/-- SET_DDRAM_ADDR, `1AAAAAAA` (R58). -/
def setDdramAddrCode (a : BitVec 7) : Byte := 0b1#1 ++ a

/-- `LINE1_BASE` (20_memory.md R43). -/
def line1Base : BitVec 7 := 0x00

/-- `LINE2_BASE` (20_memory.md R43). -/
def line2Base : BitVec 7 := 0x40

/-- `lc.line1 off` is SET_DDRAM(LINE1_BASE + off) (R62). -/
def line1Code (off : BitVec 6) : Byte := setDdramAddrCode (line1Base + off.setWidth 7)

/-- `lc.line2 off` is SET_DDRAM(LINE2_BASE + off) (R62). -/
def line2Code (off : BitVec 6) : Byte := setDdramAddrCode (line2Base + off.setWidth 7)

/-! ### Command families -/

/-- The rows of R54. -/
inductive CmdFamily where
  | none
  | clearDisplay
  | returnHome
  | entryModeSet
  | displayControl
  | cursorShift
  | functionSet4
  | functionSet8
  | setCgramAddr
  | setDdramAddr
  deriving DecidableEq, Repr, Inhabited

/-- The rows of R54, in the table's order. -/
def CmdFamily.rows : List CmdFamily :=
  [.none, .clearDisplay, .returnHome, .entryModeSet, .displayControl, .cursorShift, .functionSet4, .functionSet8,
    .setCgramAddr, .setDdramAddr]

/-- The columns "match" and "mask" of R54. -/
def CmdFamily.pattern : CmdFamily → Byte × Byte
  | .none => (0x00, 0xFF)
  | .clearDisplay => (0x01, 0xFF)
  | .returnHome => (0x02, 0xFE)
  | .entryModeSet => (0x04, 0xFC)
  | .displayControl => (0x08, 0xF8)
  | .cursorShift => (0x10, 0xF0)
  | .functionSet4 => (0x20, 0xF0)
  | .functionSet8 => (0x30, 0xF0)
  | .setCgramAddr => (0x40, 0xC0)
  | .setDdramAddr => (0x80, 0x80)

/-- The column "recognized" of R54. -/
def CmdFamily.recognized : CmdFamily → Bool
  | .none | .entryModeSet | .cursorShift | .setCgramAddr => false
  | .clearDisplay | .returnHome | .displayControl | .functionSet4 | .functionSet8 | .setDdramAddr => true

/-- `(code & mask) = match` (R61). -/
def CmdFamily.covers (fam : CmdFamily) (code : Byte) : Bool := code &&& fam.pattern.2 == fam.pattern.1

/-- `family(code)` (R61): the row that covers the code. -/
def family (code : Byte) : CmdFamily := (CmdFamily.rows.find? (·.covers code)).getD .none

/-- The instruction a command code spells: its family (R61) and the family's fields (R54). -/
def Instr.ofCode (code : Byte) : Instr :=
  match family code with
  | .none => .cmdNone
  | .clearDisplay => .clearDisplay
  | .returnHome => .returnHome (code.extractLsb' 0 1)
  | .entryModeSet => .entryModeSet (code.extractLsb' 1 1) (code.extractLsb' 0 1)
  | .displayControl => .displayControl (code.extractLsb' 2 1) (code.extractLsb' 1 1) (code.extractLsb' 0 1)
  | .cursorShift => .cursorShift (code.extractLsb' 3 1) (code.extractLsb' 2 1) (code.extractLsb' 0 2)
  | .functionSet4 => .functionSet4 (code.extractLsb' 3 1) (code.extractLsb' 2 1) (code.extractLsb' 0 2)
  | .functionSet8 => .functionSet8 (code.extractLsb' 3 1) (code.extractLsb' 2 1) (code.extractLsb' 0 2)
  | .setCgramAddr => .setCgramAddr (code.extractLsb' 0 6)
  | .setDdramAddr => .setDdramAddr (code.extractLsb' 0 7)

/-- The request (R48) an instruction is: a family or a pseudo-instruction is an LC_CMD with its code (R62). -/
def Instr.asRequest : Instr → Instr
  | .btInit sel clk => .btInit sel clk
  | .btWrite addr data => .btWrite addr data
  | .ebNibble nib rs rw bl => .ebNibble nib rs rw bl
  | .lcInit sel clk => .lcInit sel clk
  | .lcCmd code => .lcCmd code
  | .lcPutc ch => .lcPutc ch
  | .lcPuts text => .lcPuts text
  | .reserved header => .reserved header
  | .cmdNone => .lcCmd 0
  | .clearDisplay => .lcCmd clearDisplayCode.toNat
  | .returnHome u => .lcCmd (returnHomeCode u).toNat
  | .entryModeSet i s => .lcCmd (entryModeSetCode i s).toNat
  | .displayControl d c b => .lcCmd (displayControlCode d c b).toNat
  | .cursorShift s r u => .lcCmd (cursorShiftCode s r u).toNat
  | .functionSet4 n f u => .lcCmd (functionSetCode 0 n f u).toNat
  | .functionSet8 n f u => .lcCmd (functionSetCode 1 n f u).toNat
  | .setCgramAddr a => .lcCmd (setCgramAddrCode a).toNat
  | .setDdramAddr a => .lcCmd (setDdramAddrCode a).toNat
  | .lcFset dl n f => .lcCmd (functionSetCode dl n f 0).toNat
  | .lcDctl d c b => .lcCmd (displayControlCode d c b).toNat
  | .lcLine1 off => .lcCmd (line1Code off).toNat
  | .lcLine2 off => .lcCmd (line2Code off).toNat

/-- The instruction the decoder gives for an instruction's words: of the constructors that share a command code (R54, R62),
the family's. -/
def Instr.normal (i : Instr) : Instr :=
  match i.asRequest with
  | .lcCmd code => .ofCode (BitVec.ofNat 8 code)
  | q => q

/-! ### The decoder -/

/-- Why the bytes are no request. -/
inductive DecodeError where
  /-- No byte at all. -/
  | empty
  /-- The listing ends inside the request. -/
  | truncated
  /-- The operand byte of EB_SEND_NIBBLE has bit 1 set (R68). -/
  | enBitSet
  deriving DecidableEq, Repr

/-- What the decoder answers: an instruction and the bytes after it, or a rejection by name. -/
inductive Decoded where
  | instr (i : Instr) (rest : List Byte)
  | rejected (why : DecodeError)
  deriving DecidableEq, Repr

/-- `clk` as 4 bytes, most significant first; the value 0 means absent (R68). -/
def clkOperand (b3 b2 b1 b0 : Byte) : Option Nat :=
  let n := ((b3.toNat * 256 + b2.toNat) * 256 + b1.toNat) * 256 + b0.toNat
  if n = 0 then none else some n

/-- The operands `sel`, `clk` of BT_INIT and LC_INIT (R68). -/
def decodeInit (mk : Nat → Option Nat → Instr) : List Byte → Decoded
  | sel :: b3 :: b2 :: b1 :: b0 :: rest => .instr (mk sel.toNat (clkOperand b3 b2 b1 b0)) rest
  | _ => .rejected .truncated

/-- The operands `addr`, `n` and the n data bytes of BT_WRITE (R68). -/
def decodeWrite : List Byte → Decoded
  | addr :: n :: rest =>
    if n.toNat ≤ rest.length then
      .instr (.btWrite addr.toNat ((rest.take n.toNat).map BitVec.toNat)) (rest.drop n.toNat)
    else .rejected .truncated
  | _ => .rejected .truncated

/-- The operand byte `nib : rs : rw : 0 : bl` of EB_SEND_NIBBLE (R68). -/
def decodeNibble : List Byte → Decoded
  | b :: rest =>
    if b.extractLsb' 1 1 = 0#1 then
      .instr (.ebNibble (b.extractLsb' 4 4).toNat (b.extractLsb' 3 1).toNat (b.extractLsb' 2 1).toNat
        (b.extractLsb' 0 1).toNat) rest
    else .rejected .enBitSet
  | [] => .rejected .truncated

/-- The bytes before the first 0x00 and the bytes after it, if there is one. -/
def splitAtZero : List Byte → Option (List Byte × List Byte)
  | [] => none
  | b :: bs => if b = 0#8 then some ([], bs) else (splitAtZero bs).map fun (s, rest) => (b :: s, rest)

/-- The characters of LC_PUTS and their terminating 0x00 (R68). -/
def decodePuts (bs : List Byte) : Decoded :=
  match splitAtZero bs with
  | some (s, rest) => .instr (.lcPuts (s.map BitVec.toNat)) rest
  | none => .rejected .truncated

/-- A one-byte operand (R68). -/
def decodeByte (mk : Byte → Instr) : List Byte → Decoded
  | b :: rest => .instr (mk b) rest
  | [] => .rejected .truncated

/-- Reads one request in listing form (R49, R68). Range checks are the port's (R51), not the decoder's.
R68 has no row for a reserved header: it is taken as one byte without operands (DESIGN CHOICE, log entry 15). -/
def decode : List Byte → Decoded
  | [] => .rejected .empty
  | header :: bs =>
    match header.toNat with
    | 0 => decodeInit .btInit bs
    | 1 => decodeWrite bs
    | 2 => decodeNibble bs
    | 3 => decodeInit .lcInit bs
    | 4 => decodeByte .ofCode bs
    | 5 => decodeByte (fun b => .lcPutc b.toNat) bs
    | 6 => decodePuts bs
    | _ => .instr (.reserved header) bs

/-! ### The encoder -/

/-- The byte of a number (of its low 8 bits). -/
def byteOf (n : Nat) : Byte := BitVec.ofNat 8 n

/-- `clk` as 4 bytes, most significant first, 0 for absent (R68). -/
def clkBytes (clk : Option Nat) : List Byte :=
  let n := clk.getD 0
  [byteOf (n / 16777216), byteOf (n / 65536), byteOf (n / 256), byteOf n]

/-- The operand byte `nib : rs : rw : 0 : bl` (R68). -/
def nibbleOperand (nib rs rw bl : Nat) : Byte :=
  BitVec.ofNat 4 nib ++ BitVec.ofNat 1 rs ++ BitVec.ofNat 1 rw ++ 0#1 ++ BitVec.ofNat 1 bl

/-- The listing form of a request (R49, R68); of a reserved header, for which R68 has no row, the header byte alone (DESIGN CHOICE,
log entry 15). -/
def encodeRequest : Instr → List Byte
  | .btInit sel clk => 0x00 :: byteOf sel :: clkBytes clk
  | .btWrite addr data => 0x01 :: byteOf addr :: byteOf data.length :: data.map byteOf
  | .ebNibble nib rs rw bl => [0x02, nibbleOperand nib rs rw bl]
  | .lcInit sel clk => 0x03 :: byteOf sel :: clkBytes clk
  | .lcCmd code => [0x04, byteOf code]
  | .lcPutc ch => [0x05, byteOf ch]
  | .lcPuts text => 0x06 :: (text.map byteOf ++ [0x00])
  | .reserved header => [header]
  | _ => []

/-- The listing form of an instruction: its request's. -/
def encode (i : Instr) : List Byte := encodeRequest i.asRequest

/-- The clock operand has a listing form: absent, or 1 to 2^32 - 1 Hz (R68). -/
def clkListable : Option Nat → Bool
  | none => true
  | some c => decide (0 < c) && decide (c < 4294967296)

/-- The instruction has a listing form: each operand fits the bits R68 gives it (a length byte, four clock bytes, a string
without 0x00, a header that is reserved). -/
def Instr.listable : Instr → Bool
  | .btInit sel clk => decide (sel < 256) && clkListable clk
  | .btWrite addr data => decide (addr < 256) && decide (data.length < 256) && data.all (fun b => decide (b < 256))
  | .ebNibble nib rs rw bl => decide (nib < 16) && decide (rs < 2) && decide (rw < 2) && decide (bl < 2)
  | .lcInit sel clk => decide (sel < 256) && clkListable clk
  | .lcCmd code => decide (code < 256)
  | .lcPutc ch => decide (ch < 256)
  | .lcPuts text => text.all (fun b => decide (0 < b) && decide (b < 256))
  | .reserved header => decide (7 ≤ header.toNat)
  | .cmdNone => true
  | .clearDisplay => true
  | .returnHome _ => true
  | .entryModeSet _ _ => true
  | .displayControl _ _ _ => true
  | .cursorShift _ _ _ => true
  | .functionSet4 _ _ _ => true
  | .functionSet8 _ _ _ => true
  | .setCgramAddr _ => true
  | .setDdramAddr _ => true
  | .lcFset _ _ _ => true
  | .lcDctl _ _ _ => true
  | .lcLine1 _ => true
  | .lcLine2 _ => true

/-! ### What the assembler writes: pseudo-instructions of one fixed code, and operand checks (R62, R67) -/

/-- The pseudo-instruction `lc.clear` is `lc.cmd CLEAR_DISPLAY`, the one code 0x01 (R62, R59). -/
def asmClear : Instr := .clearDisplay

/-- The pseudo-instruction `lc.home` is `lc.cmd RETURN_HOME` with the named constant 0x02: bit 0, which the family leaves free,
is 0 (R62, R59). -/
def asmHome : Instr := .returnHome 0

/-- `lc.line1 off`: the assembler accepts off in 0..63 only (R62). -/
def asmLine1 (off : Nat) : Option Instr := if off ≤ 63 then some (.lcLine1 (BitVec.ofNat 6 off)) else none

/-- `lc.line2 off`: the assembler accepts off in 0..63 only (R62). -/
def asmLine2 (off : Nat) : Option Instr := if off ≤ 63 then some (.lcLine2 (BitVec.ofNat 6 off)) else none

/-- `lc.putc` of a quoted ASCII character (R63, R67). -/
def asmPutc (c : Char) : Instr := .lcPutc c.toNat

/-- `lc.puts` of a quoted ASCII text (R64, R67). -/
def asmPuts (text : List Char) : Instr := .lcPuts (text.map Char.toNat)

/-! ### The host's table words -/

/-- Operand bytes of zeros: as many as the longest counted form of R68 has. -/
def zeroOperands : List Byte := List.replicate 257 0

/-- Byte k of a table word. -/
def tableByte (w k : Nat) : Byte := BitVec.ofNat 8 (w >>> (8 * k))

/-- The request a table word spells, followed by zero operands. A row of format REQ numbers the bits of the header byte, a row
of format CMD8 or PSEUDO-CMD8 those of the command code, which follows the header of LC_CMD. The word alone does not say
which; one byte that is no operation's header (R50) is read as a command code (DESIGN CHOICE, log entry 10). -/
def tableBytes (nbits w : Nat) : List Byte :=
  let bytes := (List.range (max 1 ((nbits + 7) / 8))).map (tableByte w)
  if nbits ≤ 8 ∧ 7 ≤ w then 0x04 :: (bytes ++ zeroOperands) else bytes ++ zeroOperands

/-- The instruction the decoder reads from a table word. -/
def decodeTableWord (nbits w : Nat) : Option Instr :=
  match decode (tableBytes nbits w) with
  | .instr i _ => some i
  | .rejected _ => none

/-- The bytes of the table word that the decoder reads. -/
def tableListing (nbits w : Nat) : List Byte :=
  match decode (tableBytes nbits w) with
  | .instr _ rest => (tableBytes nbits w).take ((tableBytes nbits w).length - rest.length)
  | .rejected _ => tableBytes nbits w

end Sys2Proof
end

