-- ==== Sys2Proof/Config.lean ====
section
/-! DEFINITION. Config.lean: the parameters of 00_scope.md R7, the answers of the bus environment (R5, R10) and the free
values. What the spec leaves OPEN is an opaque constant here: nothing can evaluate it. -/

namespace Sys2Proof

/-- `ERROR_MODE` (R7, 60_exceptions.md R132): a failed transfer returns a result, or hangs the sequencer. -/
inductive ErrorMode where
  | ret
  | hang
  deriving DecidableEq, Repr, Inhabited

/-- The environment's answer at bus initialisation, `Oracle.idle(sel)` (R10). -/
inductive IdleAnswer where
  | idle
  | busy
  deriving DecidableEq, Repr, Inhabited

/-- The environment's answer to a START condition, `Oracle.start()` (R10). -/
inductive StartAnswer where
  | ok
  | stall
  deriving DecidableEq, Repr, Inhabited

/-- The environment's answer to a byte, `Oracle.ack(k)` (R10). -/
inductive Ack where
  | ack
  | nack
  | stall
  deriving DecidableEq, Repr, Inhabited

/-- `BUS_IDS` (R7): a finite set with at least one element. -/
structure BusIds where
  first : Nat
  others : List Nat
  deriving DecidableEq, Repr, Inhabited

/-- `sel` is an element of `BUS_IDS`. -/
def BusIds.has (ids : BusIds) (sel : Nat) : Bool := sel == ids.first || ids.others.contains sel

/-- The parameters of R7; durations in microseconds, the clock rate in Hz. -/
structure Params where
  slaveAddr : Addr7
  bl : Bit
  busIds : BusIds
  clkDefault : Nat
  tShortMin : Nat
  tLongMin : Nat
  tPoweronMin : Nat
  tInit1Min : Nat
  tInit2Min : Nat
  ackTimeout : Nat
  errorMode : ErrorMode
  deriving DecidableEq, Repr

/-- The one range of R7 that the types above leave out: `CLK_DEFAULT` is a positive number of Hz (R9). -/
def Params.inRange (p : Params) : Bool := decide (0 < p.clkDefault)

/-- `SLAVE_ADDR`: OPEN (R7, 92 D1). -/
opaque Config.slaveAddr : Addr7

/-- `BUS_IDS`: OPEN (R7, 92 D22). -/
opaque Config.busIds : BusIds

/-- `ACK_TIMEOUT`: OPEN, read by no rule (R7, 92 D11). -/
opaque Config.ackTimeout : Nat

/-- The parameters of `State.reset`: the defaults of R7 where it gives one. -/
def Config.params : Params where
  slaveAddr := Config.slaveAddr
  bl := 1
  busIds := Config.busIds
  clkDefault := 100000
  tShortMin := 40
  tLongMin := 1500
  tPoweronMin := 40000
  tInit1Min := 4100
  tInit2Min := 100
  ackTimeout := Config.ackTimeout
  errorMode := .ret

/-- Free value (R5: "a free oracle input (a draw) of each step, under no law"): the n-th unscripted idle answer. -/
opaque Config.freeIdle : Nat → IdleAnswer

/-- Free value (R5): the n-th unscripted answer to a START condition. -/
opaque Config.freeStart : Nat → StartAnswer

/-- Free value (R5): the n-th unscripted answer to a byte. -/
opaque Config.freeAck : Nat → Ack

end Sys2Proof
end

