-- ==== Sys2Proof/Machine/State.lean ====
section
/-! DEFINITION. Machine/State.lean: the core's registers (10_state.md R13 to R29), what stands beside them, and reset. -/

namespace Sys2Proof.Machine

open Sys2Proof

/-- `lc_state` (R16). -/
inductive LcState where
  | uninit
  | ready
  | mode8
  | failed
  deriving DecidableEq, Repr

/-- `bt_phase` (R18). -/
inductive BusPhase where
  | idle
  | start
  | addr
  | data (k : Nat)
  | stop
  deriving DecidableEq, Repr

/-- Delay classes (42_lcd_controller.md R96). -/
inductive DelayClass where
  | short
  | long
  | poweron
  | init1
  | init2
  deriving DecidableEq, Repr

/-- Events of the trace (R23). -/
inductive Event where
  | busInit (sel clk : Nat)
  | start
  | byte (b : Byte) (a : Ack)
  | stop
  | abort
  | delay (cls : DelayClass)
  deriving DecidableEq, Repr

/-- The phase a TIMEOUT names (60_exceptions.md R126). -/
inductive TimeoutPhase where
  | start
  | addr
  | data (k : Nat)
  deriving DecidableEq, Repr

/-- Results (60_exceptions.md R126). -/
inductive Result where
  | ok
  | nackAddr
  | nackData (k : Nat)
  | timeout (phase : TimeoutPhase)
  | busBusy
  deriving DecidableEq, Repr

/-- The kinds of the sticky faults (60_exceptions.md R128). -/
inductive FaultKind where
  | notReady
  | mode8Misuse
  | handleChanged
  | systemFailed
  deriving DecidableEq, Repr

/-- A micro-operation of a request's micro-program (10_state.md R18, 00_scope.md R11). -/
inductive MicroOp where
  /-- uBUSINIT with its effective clock rate (40_bus_transport.md R69, R72). -/
  | busInit (sel clk : Nat)
  /-- uWRITE (40_bus_transport.md R73). -/
  | write (addr : Addr7) (data : List Byte)
  /-- uDELAY (42_lcd_controller.md R109). -/
  | delay (cls : DelayClass)
  /-- The final state write (10_state.md R18). -/
  | setLc (st : LcState)
  deriving DecidableEq, Repr

/-- How a micro-operation ends (00_scope.md R10: `return OK`, `fail r`, `raise F`). -/
inductive MicroEnd where
  | ok
  | fail (r : Result)
  | raise (f : FaultKind)
  deriving DecidableEq, Repr

/-- The core's registers, all of them (10_state.md R13). -/
structure CoreState where
  btValid : Bool
  btSel : Nat
  btClk : Nat
  lcState : LcState
  seqBusy : Bool
  curReq : Option Instr
  upc : Nat
  btPhase : BusPhase
  faults : List (FaultKind × Instr)
  refused : Bool
  hung : Bool
  trace : List Event
  deriving DecidableEq, Repr

/-- The answers still to come of one query of the bus environment (00_scope.md R5): the scripted ones, then free values,
`drawn` of which were used. -/
structure Answers (α : Type) where
  script : List α
  drawn : Nat
  deriving DecidableEq, Repr

/-- The bus environment (00_scope.md R5 (b)). -/
structure Env where
  idle : Answers IdleAnswer
  start : Answers StartAnswer
  ack : Answers Ack
  deriving DecidableEq, Repr

/-- What the outside gives the core: a request as a record (30_encoding.md R48), requests in listing form one after another
(R68), or a reset (70_reset_and_hazards.md R146). -/
inductive Input where
  | record (q : Instr)
  | listing (bytes : List Byte)
  | reset
  deriving DecidableEq, Repr

/-- The whole machine: the core's registers; the parameters, which no step changes; the bus environment; the inputs not yet
taken, first one first; the results returned to the host so far, first one first. -/
structure State where
  core : CoreState
  params : Params
  env : Env
  inbox : List Input
  results : List Result
  deriving DecidableEq, Repr

/-- Why there is no step. Each one is safe: the model stops where the spec gives the core no step (10_state.md R21, R22;
93_implementation_defined.md rows 27, 28). Raised by the port (`haltFault`, `portFault`, `onPort` in Machine/Port.lean). -/
inductive Fault where
  /-- `hung = 1`: the sequencer takes no step until reset (R21). -/
  | hung
  /-- A request is presented while one is executing: the host is blocked (R22). Raised by `exec`, and by a step of a core that
  is busy with no request, which no run reaches. -/
  | busy
  /-- `refused = 1`: quiescent until reset (R22, R130). -/
  | quiescentRefused
  /-- The fault set is not empty: quiescent until reset (R22, R128). -/
  | quiescentFaulted
  deriving DecidableEq, Repr

/-- Why an instruction has no meaning. -/
inductive Refusal where
  /-- An instruction without a meaning yet, by its mnemonic; safe. Raised by no arm of this model. -/
  | notModelled (mnemonic : String)
  deriving DecidableEq, Repr

/-- The reset values of R29; `bt_sel` and `bt_clk`, which R29 leaves unspecified, are 0 (DESIGN CHOICE, log entry 1). -/
def CoreState.reset : CoreState where
  btValid := false
  btSel := 0
  btClk := 0
  lcState := .uninit
  seqBusy := false
  curReq := none
  upc := 0
  btPhase := .idle
  faults := []
  refused := false
  hung := false
  trace := []

/-- An environment whose every answer is a free value (DESIGN CHOICE, log entry 3). -/
def Env.unscripted : Env where
  idle := { script := [], drawn := 0 }
  start := { script := [], drawn := 0 }
  ack := { script := [], drawn := 0 }

/-- The machine right after reset, for any parameters: nothing presented, nothing returned. -/
def State.resetWith (p : Params) : State where
  core := .reset
  params := p
  env := .unscripted
  inbox := []
  results := []

/-- The machine right after reset. -/
def State.reset : State := .resetWith Config.params

end Sys2Proof.Machine
end

