-- ==== Sys2Proof/WellFormed.lean ====
section
/-! DEFINITION. WellFormed.lean: the operand check of 30_encoding.md R51 and R50. -/

namespace Sys2Proof

/-- A clock operand is absent or positive (R51, R9). -/
def clkInRange : Option Nat → Bool
  | none => true
  | some c => decide (0 < c)

/-- Every operand lies in its type (R51) and the header spells an operation (R50). It reads no state of the core. -/
def Instr.wellFormed (ids : BusIds) : Instr → Bool
  | .btInit sel clk => ids.has sel && clkInRange clk
  | .btWrite addr data => decide (addr < 128) && data.all (fun b => decide (b < 256))
  | .ebNibble nib rs rw bl => decide (nib < 16) && decide (rs < 2) && decide (rw < 2) && decide (bl < 2)
  | .lcInit sel clk => ids.has sel && clkInRange clk
  | .lcCmd code => decide (code < 256)
  | .lcPutc ch => decide (ch < 256)
  | .lcPuts text => text.all (fun b => decide (b < 256))
  | .reserved _ => false
  | .cmdNone => true
  | .clearDisplay => true
  | .returnHome _ => true
  | .entryModeSet _ _ => true
  | .displayControl _ _ _ => true
  | .cursorShift _ _ _ => true
  | .functionSet4 _ _ _ => true
  | .functionSet8 _ _ _ => true
  | .setCgramAddr _ => true
  | .setDdramAddr _ => true
  | .lcFset _ _ _ => true
  | .lcDctl _ _ _ => true
  | .lcLine1 _ => true
  | .lcLine2 _ => true

end Sys2Proof
end

