-- ==== Sys2Proof/Machine/Operands.lean ====
section
/-! DEFINITION. Machine/Operands.lean: the operand forms: the address byte, the nibble split, ENCODE and DECODE, the effective
clock rate, the characters of a string, the port's operand check. -/

namespace Sys2Proof.Machine

open Sys2Proof

/-- The address byte of a write: `addr[6:0] : 0` (20_memory.md R32). -/
def addrByte (addr : Addr7) : Byte := addr ++ 0#1

/-- `v[7:4]` (20_memory.md R36). -/
def hiNibble (v : Byte) : Nibble := v.extractLsb' 4 4

/-- `v[3:0]` (20_memory.md R36). -/
def loNibble (v : Byte) : Nibble := v.extractLsb' 0 4

/-- ENCODE: `nib[3:0] : rs : rw : en : bl` (41_expander_encoder.md R84, 30_encoding.md R52). -/
def expanderByte (nib : Nibble) (rs rw en bl : Bit) : Byte := nib ++ rs ++ rw ++ en ++ bl

/-- The data nibble D7..D4 of an expander byte (R52). -/
def lineNibble (b : Byte) : Nibble := b.extractLsb' 4 4

/-- RS of an expander byte (R52). -/
def lineRs (b : Byte) : Bit := b.extractLsb' 3 1

/-- RW of an expander byte (R52). -/
def lineRw (b : Byte) : Bit := b.extractLsb' 2 1

/-- EN of an expander byte (R52). -/
def lineEn (b : Byte) : Bit := b.extractLsb' 1 1

/-- The backlight bit of an expander byte (R52). -/
def lineBl (b : Byte) : Bit := b.extractLsb' 0 1

/-- DECODE of the four data bytes of a SEND_BYTE: `b0[7:4] : b2[7:4]` (41_expander_encoder.md R91). -/
def decodeSent (b0 _b1 b2 _b3 : Byte) : Byte := lineNibble b0 ++ lineNibble b2

/-- The four data bytes of a SEND_BYTE (41_expander_encoder.md R90). -/
def sentBytes (v : Byte) (rs bl : Bit) : List Byte :=
  [expanderByte (hiNibble v) rs 0 1 bl, expanderByte (hiNibble v) rs 0 0 bl,
   expanderByte (loNibble v) rs 0 1 bl, expanderByte (loNibble v) rs 0 0 bl]

/-- The effective clock rate: `CLK_DEFAULT` where the request names none (40_bus_transport.md R72). -/
def effectiveClk (p : Params) (clk : Option Nat) : Nat := clk.getD p.clkDefault

/-- The characters LC_PUTS sends: those before the first 0x00 (30_encoding.md R64). -/
def sentChars (text : List Nat) : List Byte := (text.takeWhile (fun c => c != 0)).map (BitVec.ofNat 8)

/-- The delay class of a command (42_lcd_controller.md R98). -/
def delayClass (code : Byte) : DelayClass :=
  if code = 0x01 ∨ code = 0x02 ∨ code = 0x03 then .long else .short

/-- The code is a FUNCTION_SET with DL = 1: `(code & 0xF0) = 0x30` (42_lcd_controller.md R99). -/
def selectsMode8 (code : Byte) : Bool := code &&& 0xF0 == 0x30

/-- The port's check of a request's spelling (30_encoding.md R50, R51): of the parameters alone, of no state of the core. -/
def requestOk (p : Params) (q : Instr) : Bool := q.wellFormed p.busIds

end Sys2Proof.Machine
end

