-- ==== Sys2Proof/Machine/Flags.lean ====
section
/-! DEFINITION. Machine/Flags.lean: the core has no flags (10_state.md R24); its status is what a host can read of a request
and the marks that close the port. Their numbers, the gate, and the port's condition. -/

namespace Sys2Proof.Machine

open Sys2Proof

/-- The numbers of `lc_state` (10_state.md R16). -/
def LcState.number : LcState → BitVec 2
  | .uninit => 0
  | .ready => 1
  | .mode8 => 2
  | .failed => 3

/-- The result codes (60_exceptions.md R126). -/
def Result.code : Result → Nat
  | .ok => 0
  | .nackAddr => 1
  | .nackData _ => 2
  | .timeout _ => 3
  | .busBusy => 4

/-- The numbers of the faults (60_exceptions.md R128). -/
def FaultKind.number : FaultKind → Nat
  | .notReady => 1
  | .mode8Misuse => 2
  | .handleChanged => 3
  | .systemFailed => 4

/-- The gate of LC_CMD, LC_PUTC and LC_PUTS: the right-hand column of 42_lcd_controller.md R101. -/
def gateLcd : LcState → Option FaultKind
  | .uninit => some .notReady
  | .ready => none
  | .mode8 => some .mode8Misuse
  | .failed => some .systemFailed

/-- The gate of LC_INIT (42_lcd_controller.md R101). -/
def gateInit : LcState → Option FaultKind
  | .uninit => none
  | .ready => none
  | .mode8 => none
  | .failed => some .systemFailed

/-- The gate of a request (R101): BT and EB requests have none. -/
def gate (q : Instr) (st : LcState) : Option FaultKind :=
  match q.asRequest with
  | .lcInit _ _ => gateInit st
  | .lcCmd _ => gateLcd st
  | .lcPutc _ => gateLcd st
  | .lcPuts _ => gateLcd st
  | _ => none

/-- The request is an LC_INIT. -/
def isLcInit (q : Instr) : Bool :=
  match q.asRequest with
  | .lcInit _ _ => true
  | _ => false

/-- Why the core has no step, if it has none: it is hung (10_state.md R21), or quiescent after a refusal or a fault (R22).
Which of several reasons is named is a DESIGN CHOICE (log entry 13). -/
def haltFault (c : CoreState) : Option Fault :=
  if c.hung then some .hung
  else if c.refused then some .quiescentRefused
  else if c.faults.isEmpty then none else some .quiescentFaulted

/-- Why the port takes no request, if it takes none (10_state.md R22, 60_exceptions.md R131 check 1). A busy port is named
last: R131 check 1 has no order that a host could see (DESIGN CHOICE, log entry 13). -/
def portFault (c : CoreState) : Option Fault :=
  match haltFault c with
  | some f => some f
  | none => if c.seqBusy then some .busy else none

end Sys2Proof.Machine
end

