-- ==== Sys2Proof/Machine/Ops.lean ====
section
/-! DEFINITION. Machine/Ops.lean: the named operations: the pseudocode primitives of 00_scope.md R10, the micro-operations, how
a request ends, and the sequencer. -/

namespace Sys2Proof.Machine

open Sys2Proof

/-! ### The bus environment's answers -/

/-- The next answer: the next scripted one, else the next free value. -/
def Answers.head {α : Type} (free : Nat → α) (a : Answers α) : α :=
  match a.script with
  | x :: _ => x
  | [] => free a.drawn

/-- The answers after the next one. -/
def Answers.tail {α : Type} (a : Answers α) : Answers α :=
  match a.script with
  | _ :: xs => { a with script := xs }
  | [] => { a with drawn := a.drawn + 1 }

/-- `Oracle.idle(sel)` (R10). -/
def idleAnswer (s : State) : IdleAnswer := s.env.idle.head Config.freeIdle

/-- `Oracle.start()` (R10). -/
def startAnswer (s : State) : StartAnswer := s.env.start.head Config.freeStart

/-- `Oracle.ack(k)` (R10). -/
def ackAnswer (s : State) : Ack := s.env.ack.head Config.freeAck

/-- The idle query has been answered. -/
def askedIdle (s : State) : State := { s with env := { s.env with idle := s.env.idle.tail } }

/-- The START query has been answered. -/
def askedStart (s : State) : State := { s with env := { s.env with start := s.env.start.tail } }

/-- The acknowledgment query has been answered. -/
def askedAck (s : State) : State := { s with env := { s.env with ack := s.env.ack.tail } }

/-! ### Registers and trace -/

/-- `Emit(e)` (R10, 10_state.md R23). -/
def emit (e : Event) (s : State) : State := { s with core := { s.core with trace := s.core.trace ++ [e] } }

/-- `bt_phase <- ph`. -/
def setPhase (ph : BusPhase) (s : State) : State := { s with core := { s.core with btPhase := ph } }

/-- `lc_state <- st`. -/
def setLc (st : LcState) (s : State) : State := { s with core := { s.core with lcState := st } }

/-- `bt_sel <- sel; bt_clk <- clk; bt_valid <- 1` (40_bus_transport.md R69). -/
def setHandle (sel clk : Nat) (s : State) : State :=
  { s with core := { s.core with btSel := sel, btClk := clk, btValid := true } }

/-- A byte goes on the wire and its acknowledgment is read back: `a <- Oracle.ack(k); Emit(BYTE(b, a))` (R73). -/
def putByte (b : Byte) (s : State) : State := emit (.byte b (ackAnswer s)) (askedAck s)

/-! ### Micro-operations -/

/-- uBUSINIT with its effective clock rate (40_bus_transport.md R69, R71). -/
def uBusInit (sel clk : Nat) (s : State) : MicroEnd × State :=
  if s.core.btValid then
    if sel = s.core.btSel ∧ clk = s.core.btClk then (.ok, s) else (.raise .handleChanged, s)
  else
    match idleAnswer s with
    | .busy => (.fail .busBusy, askedIdle s)
    | .idle => (.ok, emit (.busInit sel clk) (setHandle sel clk (askedIdle s)))

/-- The data bytes of uWRITE from byte k on, then STOP (40_bus_transport.md R73, R76, R77). -/
def sendData (k : Nat) (data : List Byte) (s : State) : MicroEnd × State :=
  match data with
  | [] => (.ok, setPhase .idle (emit .stop (setPhase .stop s)))
  | b :: rest =>
    match ackAnswer s with
    | .ack => sendData (k + 1) rest (putByte b (setPhase (.data k) s))
    | .nack => (.fail (.nackData k), emit .stop (putByte b (setPhase (.data k) s)))
    | .stall => (.fail (.timeout (.data k)), emit .abort (putByte b (setPhase (.data k) s)))

/-- The address byte of uWRITE, then its data (40_bus_transport.md R73). -/
def sendAddr (addr : Addr7) (data : List Byte) (s : State) : MicroEnd × State :=
  match ackAnswer s with
  | .ack => sendData 0 data (putByte (addrByte addr) (setPhase .addr s))
  | .nack => (.fail .nackAddr, emit .stop (putByte (addrByte addr) (setPhase .addr s)))
  | .stall => (.fail (.timeout .addr), emit .abort (putByte (addrByte addr) (setPhase .addr s)))

/-- uWRITE (40_bus_transport.md R73). -/
def uWrite (addr : Addr7) (data : List Byte) (s : State) : MicroEnd × State :=
  if s.core.btValid then
    match startAnswer s with
    | .ok => sendAddr addr data (askedStart (emit .start (setPhase .start s)))
    | .stall => (.fail (.timeout .start), emit .abort (askedStart (emit .start (setPhase .start s))))
  else (.raise .notReady, s)

/-- uDELAY (42_lcd_controller.md R109). -/
def uDelay (cls : DelayClass) (s : State) : MicroEnd × State := (.ok, emit (.delay cls) s)

/-- One micro-operation. -/
def runOp (op : MicroOp) (s : State) : MicroEnd × State :=
  match op with
  | .busInit sel clk => uBusInit sel clk s
  | .write addr data => uWrite addr data s
  | .delay cls => uDelay cls s
  | .setLc st => (.ok, setLc st s)

/-! ### How a request begins and ends -/

/-- The port accepts the request (10_state.md R22). -/
def accept (q : Instr) (s : State) : State :=
  { s with core := { s.core with seqBusy := true, curReq := some q, upc := 0 } }

/-- The sequencer returns to idle at the end of a request (10_state.md R18). -/
def CoreState.idleSeq (c : CoreState) : CoreState :=
  { c with seqBusy := false, curReq := none, upc := 0, btPhase := .idle }

/-- The request ends with a result, returned to the host (R126, 10_state.md R18). -/
def finish (r : Result) (s : State) : State :=
  { s with core := s.core.idleSeq, results := s.results ++ [r] }

/-- `raise F` of the request q: the record (F, cur_req) joins the fault set, which is a set, and the request ends with no
result (60_exceptions.md R128). -/
def raiseFault (f : FaultKind) (q : Instr) (s : State) : State :=
  { s with core := { s.core.idleSeq with
    faults := if (f, q) ∈ s.core.faults then s.core.faults else s.core.faults ++ [(f, q)] } }

/-- `fail r` of a micro-operation of the request q: with ERROR_MODE = HANG the sequencer stops (60_exceptions.md R132); with
RETURN the request ends with r (42_lcd_controller.md R107), and a failed LC_INIT leaves FAILED (R95). -/
def failWith (r : Result) (q : Instr) (s : State) : State :=
  match s.params.errorMode with
  | .hang => { s with core := { s.core with hung := true } }
  | .ret => finish r (if isLcInit q then setLc .failed s else s)

/-- `refuse M` (60_exceptions.md R130). -/
def refuse (s : State) : State := { s with core := { s.core with refused := true } }

/-- A reset of the core (70_reset_and_hazards.md R146): every register returns to its reset value (10_state.md R29, R30); the
devices, the parameters and what the host holds are not the core's. -/
def coreReset (s : State) : State := { s with core := .reset }

/-! ### The sequencer -/

/-- `upc` advances by 1 when a micro-operation completes with OK (10_state.md R18). -/
def advance (s : State) : State := { s with core := { s.core with upc := s.core.upc + 1 } }

/-- Runs the rest of the micro-program of the request q to the request's end, or to the hang (10_state.md R18). -/
def runProgram (q : Instr) (program : List MicroOp) (s : State) : State :=
  match program with
  | [] => finish .ok s
  | op :: rest =>
    match runOp op s with
    | (.ok, t) => runProgram q rest (advance t)
    | (.fail r, t) => failWith r q t
    | (.raise f, t) => raiseFault f q t

/-- What the request q, whose micro-program is given, does at an open port: refusal, then the gate, then the micro-program
(60_exceptions.md R131, checks 2 to 5). -/
def served (q : Instr) (program : List MicroOp) (s : State) : State :=
  if requestOk s.params q then
    match gate q s.core.lcState with
    | some f => raiseFault f q (accept q s)
    | none => runProgram q program (accept q s)
  else refuse s

/-- The host presents the request q: the port's check comes first (60_exceptions.md R131, check 1). -/
def serve (q : Instr) (program : List MicroOp) (s : State) : Host.Outcome State Fault Refusal :=
  match portFault s.core with
  | some f => .fault f
  | none => .next (served q program s)

end Sys2Proof.Machine
end

