-- ==== Sys2Proof/Machine/BusTransport.lean ====
section
/-! DEFINITION. Machine/BusTransport.lean: BT_INIT and BT_WRITE (40_bus_transport.md), and the reserved headers. -/

namespace Sys2Proof.Machine

open Sys2Proof

/-- BT_INIT is the single micro-operation uBUSINIT (R69). -/
def btInitProgram (p : Params) (sel : Nat) (clk : Option Nat) : List MicroOp := [.busInit sel (effectiveClk p clk)]

/-- BT_WRITE is the single micro-operation uWRITE (R75). -/
def btWriteProgram (addr : Nat) (data : List Nat) : List MicroOp :=
  [.write (BitVec.ofNat 7 addr) (data.map (BitVec.ofNat 8))]

/-- BT_INIT (R69). -/
def execBtInit (sel : Nat) (clk : Option Nat) (s : State) : Host.Outcome State Fault Refusal :=
  serve (.btInit sel clk) (btInitProgram s.params sel clk) s

/-- BT_WRITE (R75). -/
def execBtWrite (addr : Nat) (data : List Nat) (s : State) : Host.Outcome State Fault Refusal :=
  serve (.btWrite addr data) (btWriteProgram addr data) s

/-- A reserved header spells no operation: the port refuses it (30_encoding.md R50). It has no micro-program. -/
def execReserved (header : Byte) (s : State) : Host.Outcome State Fault Refusal :=
  serve (.reserved header) [] s

end Sys2Proof.Machine
end

