-- ==== Sys2Proof/Machine/Expander.lean ====
section
/-! DEFINITION. Machine/Expander.lean: the Expander Byte Encoder (41_expander_encoder.md). -/

namespace Sys2Proof.Machine

open Sys2Proof

/-- uXFER (40_bus_transport.md R80). -/
def uXfer (p : Params) (b : Byte) : MicroOp := .write p.slaveAddr [b]

/-- SEND_NIBBLE: the EN = 1 write, then the EN = 0 write (R85, R86). -/
def sendNibble (p : Params) (nib : Nibble) (rs rw bl : Bit) : List MicroOp :=
  [uXfer p (expanderByte nib rs rw 1 bl), uXfer p (expanderByte nib rs rw 0 bl)]

/-- SEND_BYTE: the high nibble, then the low nibble, with RW = 0 (R90). -/
def sendByte (p : Params) (v : Byte) (rs bl : Bit) : List MicroOp :=
  sendNibble p (hiNibble v) rs 0 bl ++ sendNibble p (loNibble v) rs 0 bl

/-- The micro-program of EB_SEND_NIBBLE (R85). -/
def ebNibbleProgram (p : Params) (nib rs rw bl : Nat) : List MicroOp :=
  sendNibble p (BitVec.ofNat 4 nib) (BitVec.ofNat 1 rs) (BitVec.ofNat 1 rw) (BitVec.ofNat 1 bl)

/-- EB_SEND_NIBBLE (R85). -/
def execEbNibble (nib rs rw bl : Nat) (s : State) : Host.Outcome State Fault Refusal :=
  serve (.ebNibble nib rs rw bl) (ebNibbleProgram s.params nib rs rw bl) s

end Sys2Proof.Machine
end

