-- ==== Sys2Proof/Machine/LcdControl.lean ====
section
/-! DEFINITION. Machine/LcdControl.lean: LC_INIT, LC_CMD, LC_PUTC and LC_PUTS (42_lcd_controller.md). -/

namespace Sys2Proof.Machine

open Sys2Proof

/-- INIT_SEQ (R94): the power-on wait, three nibbles 0x3 and one nibble 0x2, each with the delay after it. -/
def initSequence (p : Params) : List MicroOp :=
  [.delay .poweron] ++ sendNibble p 0x3 0 0 p.bl ++ [.delay .init1]
    ++ sendNibble p 0x3 0 0 p.bl ++ [.delay .init2]
    ++ sendNibble p 0x3 0 0 p.bl ++ [.delay .short]
    ++ sendNibble p 0x2 0 0 p.bl ++ [.delay .short]

/-- The micro-program of LC_INIT (R93). -/
def lcInitProgram (p : Params) (sel : Nat) (clk : Option Nat) : List MicroOp :=
  [.busInit sel (effectiveClk p clk)] ++ initSequence p ++ [.setLc .ready]

/-- The micro-program of LC_CMD (R97): both nibbles with RS = 0, the command's delay (R98), and MODE8 after an 8-bit function
set (R99). -/
def lcCmdProgram (p : Params) (code : Byte) : List MicroOp :=
  sendByte p code 0 p.bl ++ [.delay (delayClass code)] ++ (if selectsMode8 code then [.setLc .mode8] else [])

/-- One character: both nibbles with RS = 1, then the short delay (R103). -/
def putcProgram (p : Params) (ch : Byte) : List MicroOp := sendByte p ch 1 p.bl ++ [.delay .short]

/-- The characters of a string in order (R104). -/
def putsProgram (p : Params) (text : List Nat) : List MicroOp := (sentChars text).flatMap (putcProgram p)

/-- LC_INIT (R93). -/
def execLcInit (sel : Nat) (clk : Option Nat) (s : State) : Host.Outcome State Fault Refusal :=
  serve (.lcInit sel clk) (lcInitProgram s.params sel clk) s

/-- LC_CMD (R97). -/
def execLcCmd (code : Nat) (s : State) : Host.Outcome State Fault Refusal :=
  serve (.lcCmd code) (lcCmdProgram s.params (BitVec.ofNat 8 code)) s

/-- LC_PUTC (R103). -/
def execLcPutc (ch : Nat) (s : State) : Host.Outcome State Fault Refusal :=
  serve (.lcPutc ch) (putcProgram s.params (BitVec.ofNat 8 ch)) s

/-- LC_PUTS (R104). -/
def execLcPuts (text : List Nat) (s : State) : Host.Outcome State Fault Refusal :=
  serve (.lcPuts text) (putsProgram s.params text) s

end Sys2Proof.Machine
end

