-- ==== Sys2Proof/Machine/LcdCommands.lean ====
section
/-! DEFINITION. Machine/LcdCommands.lean: the command families (43_lcd_commands.md) and the pseudo-instructions
(30_encoding.md R62): each is an LC_CMD with the code its fields spell. What the LCD does with the code is the LCD's. -/

namespace Sys2Proof.Machine

open Sys2Proof

/-- The LC_CMD request of a code (R62, R97). -/
def serveCommand (code : Byte) (s : State) : Host.Outcome State Fault Refusal :=
  serve (.lcCmd code.toNat) (lcCmdProgram s.params code) s

/-- Code 0x00 (R125). -/
def execCmdNone (s : State) : Host.Outcome State Fault Refusal := serveCommand 0x00 s

/-- CLEAR_DISPLAY (R114). -/
def execClearDisplay (s : State) : Host.Outcome State Fault Refusal := serveCommand clearDisplayCode s

/-- RETURN_HOME (R115). -/
def execReturnHome (unused : Bit) (s : State) : Host.Outcome State Fault Refusal :=
  serveCommand (returnHomeCode unused) s

/-- ENTRY_MODE_SET (R122). -/
def execEntryModeSet (increment shift : Bit) (s : State) : Host.Outcome State Fault Refusal :=
  serveCommand (entryModeSetCode increment shift) s

/-- DISPLAY_CONTROL (R119). -/
def execDisplayControl (d c b : Bit) (s : State) : Host.Outcome State Fault Refusal :=
  serveCommand (displayControlCode d c b) s

/-- CURSOR_SHIFT (R123). -/
def execCursorShift (shiftDisplay right : Bit) (unused : BitVec 2) (s : State) : Host.Outcome State Fault Refusal :=
  serveCommand (cursorShiftCode shiftDisplay right unused) s

/-- FUNCTION_SET with DL = 0 (R116). -/
def execFunctionSet4 (n f : Bit) (unused : BitVec 2) (s : State) : Host.Outcome State Fault Refusal :=
  serveCommand (functionSetCode 0 n f unused) s

/-- FUNCTION_SET with DL = 1 (R117). -/
def execFunctionSet8 (n f : Bit) (unused : BitVec 2) (s : State) : Host.Outcome State Fault Refusal :=
  serveCommand (functionSetCode 1 n f unused) s

/-- SET_CGRAM_ADDR (R124). -/
def execSetCgramAddr (a : BitVec 6) (s : State) : Host.Outcome State Fault Refusal :=
  serveCommand (setCgramAddrCode a) s

/-- SET_DDRAM_ADDR (R118). -/
def execSetDdramAddr (a : BitVec 7) (s : State) : Host.Outcome State Fault Refusal :=
  serveCommand (setDdramAddrCode a) s

/-- `lc.fset dl, n, f` (R62): bits 1..0 are 00. -/
def execLcFset (dl n f : Bit) (s : State) : Host.Outcome State Fault Refusal :=
  serveCommand (functionSetCode dl n f 0) s

/-- `lc.dctl d, c, b` (R62). -/
def execLcDctl (d c b : Bit) (s : State) : Host.Outcome State Fault Refusal :=
  serveCommand (displayControlCode d c b) s

/-- `lc.line1 off` (R120). -/
def execLcLine1 (off : BitVec 6) (s : State) : Host.Outcome State Fault Refusal :=
  serveCommand (line1Code off) s

/-- `lc.line2 off` (R121). -/
def execLcLine2 (off : BitVec 6) (s : State) : Host.Outcome State Fault Refusal :=
  serveCommand (line2Code off) s

end Sys2Proof.Machine
end

