-- ==== Sys2Proof/Machine/Dispatch.lean ====
section
/-! DEFINITION. Machine/Dispatch.lean: the meaning of each instruction. -/

namespace Sys2Proof.Machine

open Sys2Proof

def exec (i : Instr) (s : State) : Host.Outcome State Fault Refusal :=
  match i with
  -- requests (30_encoding.md R49)
  | .btInit sel clk => Sys2Proof.Machine.execBtInit sel clk s
  | .btWrite addr data => Sys2Proof.Machine.execBtWrite addr data s
  | .ebNibble nib rs rw bl => Sys2Proof.Machine.execEbNibble nib rs rw bl s
  | .lcInit sel clk => Sys2Proof.Machine.execLcInit sel clk s
  | .lcCmd code => Sys2Proof.Machine.execLcCmd code s
  | .lcPutc ch => Sys2Proof.Machine.execLcPutc ch s
  | .lcPuts text => Sys2Proof.Machine.execLcPuts text s
  | .reserved header => Sys2Proof.Machine.execReserved header s
  -- command families (30_encoding.md R54)
  | .cmdNone => Sys2Proof.Machine.execCmdNone s
  | .clearDisplay => Sys2Proof.Machine.execClearDisplay s
  | .returnHome unused => Sys2Proof.Machine.execReturnHome unused s
  | .entryModeSet increment shift => Sys2Proof.Machine.execEntryModeSet increment shift s
  | .displayControl d c b => Sys2Proof.Machine.execDisplayControl d c b s
  | .cursorShift shiftDisplay right unused => Sys2Proof.Machine.execCursorShift shiftDisplay right unused s
  | .functionSet4 n f unused => Sys2Proof.Machine.execFunctionSet4 n f unused s
  | .functionSet8 n f unused => Sys2Proof.Machine.execFunctionSet8 n f unused s
  | .setCgramAddr a => Sys2Proof.Machine.execSetCgramAddr a s
  | .setDdramAddr a => Sys2Proof.Machine.execSetDdramAddr a s
  -- pseudo-instructions (30_encoding.md R62)
  | .lcFset dl n f => Sys2Proof.Machine.execLcFset dl n f s
  | .lcDctl d c b => Sys2Proof.Machine.execLcDctl d c b s
  | .lcLine1 off => Sys2Proof.Machine.execLcLine1 off s
  | .lcLine2 off => Sys2Proof.Machine.execLcLine2 off s

end Sys2Proof.Machine
end

