-- ==== Sys2Proof/Machine/Program.lean ====
section
/-! DEFINITION. Machine/Program.lean: the micro-program of every request, the sequencer one micro-operation at a time
(10_state.md R18), and a busy core going on with its request. -/

namespace Sys2Proof.Machine

open Sys2Proof

/-- The micro-program of a request (10_state.md R18). -/
def programOf (p : Params) (q : Instr) : List MicroOp :=
  match q.asRequest with
  | .btInit sel clk => btInitProgram p sel clk
  | .btWrite addr data => btWriteProgram addr data
  | .ebNibble nib rs rw bl => ebNibbleProgram p nib rs rw bl
  | .lcInit sel clk => lcInitProgram p sel clk
  | .lcCmd code => lcCmdProgram p (BitVec.ofNat 8 code)
  | .lcPutc ch => putcProgram p (BitVec.ofNat 8 ch)
  | .lcPuts text => putsProgram p text
  | _ => []

/-- What follows a micro-operation of the request q. -/
def settle (q : Instr) (r : MicroEnd × State) : State :=
  match r with
  | (.ok, t) => advance t
  | (.fail r, t) => failWith r q t
  | (.raise f, t) => raiseFault f q t

/-- One step of the sequencer: the micro-operation at `upc`, or the request's end when `upc` has passed the last one; none
while the core is idle or hung (10_state.md R18, R21). -/
def microStep (s : State) : State :=
  if s.core.seqBusy && !s.core.hung then
    match s.core.curReq with
    | none => s
    | some q =>
      match (programOf s.params q)[s.core.upc]? with
      | none => finish .ok s
      | some op => settle q (runOp op s)
  else s

/-- `n` steps of the sequencer. -/
def microSteps (n : Nat) (s : State) : State :=
  match n with
  | 0 => s
  | n + 1 => microSteps n (microStep s)

/-- A busy core goes on with its request from `upc` to the request's end. A core that is busy with no request, which no run
reaches, has no step. -/
def resume (s : State) : Host.Outcome State Fault Refusal :=
  match s.core.curReq with
  | some q => .next (runProgram q ((programOf s.params q).drop s.core.upc) s)
  | none => .fault .busy

end Sys2Proof.Machine
end

