-- ==== Sys2Proof/Machine/Port.lean ====
section
/-! DEFINITION. Machine/Port.lean: what the request port is given next (10_state.md R22, 30_encoding.md R68). -/

namespace Sys2Proof.Machine

open Sys2Proof

/-- What the outside does next, and the inputs after it. -/
inductive Offer where
  /-- Nothing: the core waits for a request (70_reset_and_hazards.md R146). -/
  | nothing
  /-- A reset. -/
  | reset (rest : List Input)
  /-- A request. -/
  | request (q : Instr) (rest : List Input)
  /-- Bytes that spell no request (log entry 7). -/
  | malformed (rest : List Input)
  deriving DecidableEq, Repr

/-- What is left of a listing after its first request. -/
def listingRest (bytes : List Byte) (rest : List Input) : List Input :=
  match bytes with
  | [] => rest
  | b :: bs => .listing (b :: bs) :: rest

/-- The first input; a listing gives its first request, one without bytes is passed over. What follows the first request stays as a
listing, after a reserved header too (DESIGN CHOICE, log entry 15); what follows a malformed one is dropped (log entry 7). -/
def nextOffer (inputs : List Input) : Offer :=
  match inputs with
  | [] => .nothing
  | .reset :: rest => .reset rest
  | .record q :: rest => .request q rest
  | .listing [] :: rest => nextOffer rest
  | .listing (b :: bs) :: rest =>
    match decode (b :: bs) with
    | .instr q more => .request q (listingRest more rest)
    | .rejected _ => .malformed rest

/-- `k` if the core can take a request; a core that is hung or quiescent has no step (10_state.md R21, R22), a busy one goes
on with its request. -/
def onPort (s : State) (k : Host.Outcome State Fault Refusal) : Host.Outcome State Fault Refusal :=
  match haltFault s.core with
  | some f => .fault f
  | none => if s.core.seqBusy then resume s else k

/-- The state with the inputs given. -/
def withInbox (inputs : List Input) (s : State) : State := { s with inbox := inputs }

end Sys2Proof.Machine
end

