-- ==== Sys2Proof/Machine/Step.lean ====
section
/-! DEFINITION. Machine/Step.lean: one step: the outside's next input, run to its end (10_state.md R18, R22). -/

namespace Sys2Proof.Machine

open Sys2Proof

def step (s : State) : Host.Outcome State Fault Refusal :=
  match nextOffer s.inbox with
  | .nothing => onPort s (.next s)
  | .reset rest => .next (coreReset (withInbox rest s))
  | .request q rest => onPort s (exec q (withInbox rest s))
  | .malformed rest => onPort s (.next (refuse (withInbox rest s)))

/-- The request a table word spells, given to the port before everything else. -/
def State.withFetchWord (s : State) (nbits w : Nat) : State :=
  withInbox (.listing (tableListing nbits w) :: s.inbox) s

end Sys2Proof.Machine
end

