-- ==== Sys2Proof/Machine/Observer.lean ====
section
/-! DEFINITION. Machine/Observer.lean: the observer model of 10_state.md R27, which the spec marks informative: what the expander
and the LCD take from a trace. No meaning reads it. What R27 leaves unknown is an argument: the output lines at power-on, and
whether a data byte answered STALL was taken (93_implementation_defined.md rows 10, 13). The one unknown that is no argument is the
LCD's nibble phase (row 9): `pairNibbles` assumes it (DESIGN CHOICE, log entry 9). -/

namespace Sys2Proof.Machine

open Sys2Proof

/-- Where the expander is in a transaction. -/
inductive ObsPhase where
  | outside
  | addr
  | data (selected : Bool)
  deriving DecidableEq, Repr

/-- What the observer has seen: the expander's output lines, the nibbles the LCD sampled with their RS, first one first, and
how many data bytes to the expander were answered STALL. -/
structure Observed where
  phase : ObsPhase
  latch : Byte
  nibbles : List (Bit × Nibble)
  stalled : Nat
  deriving DecidableEq, Repr

/-- Before the first event, with the given output lines. -/
def Observed.start (latch : Byte) : Observed where
  phase := .outside
  latch := latch
  nibbles := []
  stalled := 0

/-- The expander takes a byte; where EN goes from 1 to 0 the LCD samples D7..D4 and RS (R27; log entry 9). -/
def latchByte (b : Byte) (o : Observed) : Observed :=
  { o with
    latch := b
    nibbles := if lineEn o.latch = 1#1 ∧ lineEn b = 0#1 then o.nibbles ++ [(lineRs b, lineNibble b)] else o.nibbles }

/-- A byte on the wire: the address byte selects the expander, a data byte to it is latched when acknowledged (R27). -/
def observeByte (slave : Addr7) (taken : Nat → Bool) (b : Byte) (a : Ack) (o : Observed) : Observed :=
  match o.phase with
  | .outside => o
  | .addr => { o with phase := .data (b == addrByte slave && a == .ack) }
  | .data false => o
  | .data true =>
    match a with
    | .ack => latchByte b o
    | .nack => o
    | .stall =>
      if taken o.stalled then latchByte b { o with stalled := o.stalled + 1 } else { o with stalled := o.stalled + 1 }

/-- One event. -/
def observeEvent (slave : Addr7) (taken : Nat → Bool) (o : Observed) (e : Event) : Observed :=
  match e with
  | .busInit _ _ => o
  | .start => { o with phase := .addr }
  | .byte b a => observeByte slave taken b a o
  | .stop => { o with phase := .outside }
  | .abort => { o with phase := .outside }
  | .delay _ => o

/-- The events of a trace in order. -/
def observe (slave : Addr7) (taken : Nat → Bool) (events : List Event) (o : Observed) : Observed :=
  events.foldl (observeEvent slave taken) o

/-- In 4-bit mode two sampled nibbles form one byte, high nibble first (R27, 20_memory.md R36); RS is the high nibble's.
DESIGN CHOICE (log entry 9): R27 and 93_implementation_defined.md row 9 leave the LCD's nibble phase before the init sequence
unspecified, and this takes the first nibble of its list as a high nibble, so it says what an LCD in 4-bit mode and in phase pairs;
a last nibble without a partner is left out. -/
def pairNibbles : List (Bit × Nibble) → List (Bit × Byte)
  | (rs, hi) :: (_, lo) :: rest => (rs, hi ++ lo) :: pairNibbles rest
  | _ => []

end Sys2Proof.Machine
end

