-- ==== Sys2Proof/Machine/Timing.lean ====
section
/-! DEFINITION. Machine/Timing.lean: lower bounds of a trace's duration (42_lcd_controller.md R96, 70_reset_and_hazards.md R157,
R158, informative). The model has no time (R160): no meaning reads these. -/

namespace Sys2Proof.Machine

open Sys2Proof

/-- The minimum duration of a delay class, in microseconds (R96). -/
def delayMin (p : Params) : DelayClass → Nat
  | .short => p.tShortMin
  | .long => p.tLongMin
  | .poweron => p.tPoweronMin
  | .init1 => p.tInit1Min
  | .init2 => p.tInit2Min

/-- The delays of a trace take at least this many microseconds. -/
def traceDelayMin (p : Params) : List Event → Nat
  | [] => 0
  | .delay cls :: rest => delayMin p cls + traceDelayMin p rest
  | _ :: rest => traceDelayMin p rest

/-- The byte slots of a trace take this many bit periods: 8 data bits and the acknowledgment bit each (R157). -/
def traceBits : List Event → Nat
  | [] => 0
  | .byte _ _ :: rest => 9 + traceBits rest
  | _ :: rest => traceBits rest

/-- A trace lasts at least this many microseconds on a bus of the given clock rate (R157: a bit period at 100 kHz is 10
microseconds, "At another clock rate c the figures scale by 100000 / c"). -/
def traceMin (p : Params) (clk : Nat) (events : List Event) : Nat :=
  traceDelayMin p events + traceBits events * 1000000 / clk

end Sys2Proof.Machine
end

