-- ==== Sys2Proof/Safety.lean ====
section
/-! DEFINITION. Safety.lean: the words the statements use: an open port, a clean bus, what a clean request shows on the trace and
leaves behind, the framing of a trace, and the invariant. -/

namespace Sys2Proof.Machine

open Sys2Proof

/-- The port takes a request (10_state.md R22). -/
def State.portOpen (s : State) : Bool :=
  !s.core.seqBusy && !s.core.hung && !s.core.refused && s.core.faults.isEmpty

/-- A successful final state has an empty fault set (10_state.md R19) and no refusal (60_exceptions.md R130) or hang (R132). -/
def State.successful (s : State) : Bool := s.portOpen

/-! ### A clean bus -/

/-- The next `n` answers are `v`. -/
def Answers.firstAre {α : Type} [DecidableEq α] (free : Nat → α) (v : α) (n : Nat) (a : Answers α) : Bool :=
  match n with
  | 0 => true
  | n + 1 => decide (a.head free = v) && Answers.firstAre free v n a.tail

/-- The answers after the next `n`. -/
def Answers.skip {α : Type} (n : Nat) (a : Answers α) : Answers α :=
  match n with
  | 0 => a
  | n + 1 => Answers.skip n a.tail

/-- The next `starts` START conditions complete and the next `acks` bytes are acknowledged. -/
def State.clean (s : State) (starts acks : Nat) : Bool :=
  s.env.start.firstAre Config.freeStart .ok starts && s.env.ack.firstAre Config.freeAck .ack acks

/-- The environment after `starts` START conditions and `acks` bytes. -/
def Env.after (e : Env) (starts acks : Nat) : Env :=
  { e with start := e.start.skip starts, ack := e.ack.skip acks }

/-! ### What clean requests show -/

/-- A transaction whose bytes are all acknowledged (40_bus_transport.md R73). -/
def okTransaction (addr : Addr7) (data : List Byte) : List Event :=
  .start :: .byte (addrByte addr) .ack :: (data.map (fun b => .byte b .ack) ++ [.stop])

/-- A single-byte write to the expander (R80). -/
def okXfer (p : Params) (b : Byte) : List Event := okTransaction p.slaveAddr [b]

/-- A nibble: EN = 1, then EN = 0 (41_expander_encoder.md R85). -/
def okNibble (p : Params) (nib : Nibble) (rs rw bl : Bit) : List Event :=
  okXfer p (expanderByte nib rs rw 1 bl) ++ okXfer p (expanderByte nib rs rw 0 bl)

/-- A logical byte: its four data bytes, each in a transaction of its own (R90). -/
def okByte (p : Params) (v : Byte) (rs bl : Bit) : List Event := (sentBytes v rs bl).flatMap (okXfer p)

/-- A command (42_lcd_controller.md R97). -/
def okCommand (p : Params) (code : Byte) : List Event := okByte p code 0 p.bl ++ [.delay (delayClass code)]

/-- A character (42_lcd_controller.md R103). -/
def okChar (p : Params) (ch : Byte) : List Event := okByte p ch 1 p.bl ++ [.delay .short]

/-- The init sequence (42_lcd_controller.md R94). -/
def okInitSequence (p : Params) : List Event :=
  [.delay .poweron] ++ okNibble p 0x3 0 0 p.bl ++ [.delay .init1] ++ okNibble p 0x3 0 0 p.bl ++ [.delay .init2]
    ++ okNibble p 0x3 0 0 p.bl ++ [.delay .short] ++ okNibble p 0x2 0 0 p.bl ++ [.delay .short]

/-- What a micro-operation that completes shows on the trace; uBUSINIT shows nothing on a bus that is initialised already. -/
def MicroOp.okEvents (valid : Bool) : MicroOp → List Event
  | .busInit sel clk => if valid then [] else [.busInit sel clk]
  | .write addr data => okTransaction addr data
  | .delay cls => [.delay cls]
  | .setLc _ => []

/-- How a failing transaction of `data` to `addr` looks on the trace, and its result (40_bus_transport.md R76, R77). -/
inductive FailedTransaction (addr : Addr7) (data : List Byte) : List Event → Result → Prop
  | startStall : FailedTransaction addr data [.start, .abort] (.timeout .start)
  | addrNack : FailedTransaction addr data [.start, .byte (addrByte addr) .nack, .stop] .nackAddr
  | addrStall : FailedTransaction addr data [.start, .byte (addrByte addr) .stall, .abort] (.timeout .addr)
  | dataNack (pre : List Byte) (b : Byte) (post : List Byte) (h : data = pre ++ b :: post) :
      FailedTransaction addr data
        (.start :: .byte (addrByte addr) .ack :: (pre.map (fun b => .byte b .ack) ++ [.byte b .nack, .stop]))
        (.nackData pre.length)
  | dataStall (pre : List Byte) (b : Byte) (post : List Byte) (h : data = pre ++ b :: post) :
      FailedTransaction addr data
        (.start :: .byte (addrByte addr) .ack :: (pre.map (fun b => .byte b .ack) ++ [.byte b .stall, .abort]))
        (.timeout (.data pre.length))

/-- A request has ended with the result `r`: the events are on the trace, `lc_state` is `lc`, the sequencer is idle, the
environment is `env`, and nothing else has changed. -/
def State.ended (s : State) (events : List Event) (lc : LcState) (env : Env) (r : Result) : State :=
  { s with
    core := { s.core.idleSeq with trace := s.core.trace ++ events, lcState := lc }
    env := env
    results := s.results ++ [r] }

/-- A request has raised the fault `f`: nothing else has changed but the sequencer's registers (60_exceptions.md R129). -/
def State.faulted (s : State) (f : FaultKind) (q : Instr) : State :=
  { s with core := { s.core.idleSeq with faults := s.core.faults ++ [(f, q)] } }

/-- A request has been refused (60_exceptions.md R130). -/
def State.marked (s : State) : State := { s with core := { s.core with refused := true } }

/-! ### The framing of a trace -/

/-- Where a trace stands: between transactions, after START, after an acknowledged byte, after NACK, after STALL; or framed
wrongly. -/
inductive Framing where
  | closed
  | opened
  | running
  | needStop
  | needAbort
  | broken
  deriving DecidableEq, Repr

/-- What must follow a byte answered `a` (40_bus_transport.md R73, R76, R77). -/
def Framing.afterAck : Ack → Framing
  | .ack => .running
  | .nack => .needStop
  | .stall => .needAbort

/-- One event of a trace: BUSINIT and DELAY stand between transactions only; the first byte of a transaction is an address byte
with direction bit 0 (20_memory.md R33); nothing but STOP follows NACK and nothing but ABORT follows STALL. -/
def Framing.next (f : Framing) (e : Event) : Framing :=
  match f, e with
  | .closed, .busInit _ _ => .closed
  | .closed, .delay _ => .closed
  | .closed, .start => .opened
  | .opened, .abort => .closed
  | .opened, .byte b a => if b.extractLsb' 0 1 = 0#1 then .afterAck a else .broken
  | .running, .byte _ a => .afterAck a
  | .running, .stop => .closed
  | .needStop, .stop => .closed
  | .needAbort, .abort => .closed
  | _, _ => .broken

/-- The trace consists of whole transactions, BUSINIT and DELAY events. -/
def wellFramed (trace : List Event) : Bool := trace.foldl Framing.next .closed == .closed

/-! ### The invariant -/

/-- What every step keeps, from any state that has it. -/
structure State.Inv (s : State) : Prop where
  /-- `CLK_DEFAULT` is in its range (00_scope.md R7). -/
  params : s.params.inRange = true
  /-- Between requests only a hung core is busy (10_state.md R18, R21). -/
  busy : s.core.seqBusy = s.core.hung
  /-- An idle sequencer has its idle values (R18). -/
  idle : s.core.seqBusy = false → s.core.curReq = none ∧ s.core.upc = 0 ∧ s.core.btPhase = .idle
  /-- A busy one has a request (R18). -/
  request : s.core.seqBusy = true → s.core.curReq ≠ none
  /-- Only ERROR_MODE = HANG hangs (R21). -/
  hang : s.core.hung = true → s.params.errorMode = .hang
  /-- At most one of hang, refusal and fault, and one fault at most (R22, 60_exceptions.md R133). -/
  oneEnd : (s.core.hung = true → s.core.refused = false ∧ s.core.faults = []) ∧
    (s.core.refused = true → s.core.faults = []) ∧ s.core.faults.length ≤ 1
  /-- READY and MODE8 are reached through a successful uBUSINIT only (60_exceptions.md R129). -/
  bus : s.core.lcState = .ready ∨ s.core.lcState = .mode8 → s.core.btValid = true
  /-- The handle's fields are in their ranges once it is valid (R14). -/
  handle : s.core.btValid = true → s.params.busIds.has s.core.btSel = true ∧ 0 < s.core.btClk
  /-- The trace consists of whole transactions, BUSINIT and DELAY events (40_bus_transport.md R73). -/
  framed : wellFramed s.core.trace = true

end Sys2Proof.Machine
end

