-- ==== Sys2Proof/Certificates/Slice0/Obligations.lean ====
section
/-! DEFINITION. Certificates/Slice0/Obligations.lean: the statements for the provers. -/

open Sys2Proof Sys2Proof.Machine

/-! ### Words of the statements, written from the spec's numbers and not from the model's functions -/

namespace Sys2Proof.Claim

/-- START, the address byte `addr * 2`, the data bytes, STOP, every byte acknowledged (40_bus_transport.md R73, R32). -/
def transaction (addr : Nat) (data : List Nat) : List Event :=
  [.start, .byte (BitVec.ofNat 8 (addr * 2)) .ack] ++ data.map (fun b => .byte (BitVec.ofNat 8 b) .ack) ++ [.stop]

/-- Single-byte transactions to the expander, one for each number (40_bus_transport.md R80). -/
def xfers (p : Params) (data : List Nat) : List Event := data.flatMap fun b => transaction p.slaveAddr.toNat [b]

/-- A nibble with EN = 1, then with EN = 0 (41_expander_encoder.md R84, R85). -/
def nibble (nib rs rw bl : Nat) : List Nat := [nib * 16 + rs * 8 + rw * 4 + 2 + bl, nib * 16 + rs * 8 + rw * 4 + bl]

/-- A logical byte: the nibble `v / 16`, then the nibble `v % 16`, with RW = 0 (41_expander_encoder.md R90). -/
def logicalByte (v rs bl : Nat) : List Nat := nibble (v / 16) rs 0 bl ++ nibble (v % 16) rs 0 bl

/-- LONG after clear and home, SHORT after everything else (42_lcd_controller.md R98). -/
def delayOf (code : Nat) : DelayClass := if code = 1 ∨ code = 2 ∨ code = 3 then .long else .short

/-- A command on a clean bus (42_lcd_controller.md R97). -/
def command (p : Params) (code : Nat) : List Event := xfers p (logicalByte code 0 p.bl.toNat) ++ [.delay (delayOf code)]

/-- A character on a clean bus (42_lcd_controller.md R103). -/
def character (p : Params) (ch : Nat) : List Event := xfers p (logicalByte ch 1 p.bl.toNat) ++ [.delay .short]

/-- INIT_SEQ on a clean bus (42_lcd_controller.md R94). -/
def initEvents (p : Params) : List Event :=
  [.delay .poweron] ++ xfers p (nibble 3 0 0 p.bl.toNat) ++ [.delay .init1] ++ xfers p (nibble 3 0 0 p.bl.toNat)
    ++ [.delay .init2] ++ xfers p (nibble 3 0 0 p.bl.toNat) ++ [.delay .short] ++ xfers p (nibble 2 0 0 p.bl.toNat)
    ++ [.delay .short]

/-- The code of a command family or a pseudo-instruction, from its fields (30_encoding.md R54, R62). -/
def familyCode : Instr → Option Nat
  | .cmdNone => some 0x00
  | .clearDisplay => some 0x01
  | .returnHome u => some (0x02 + u.toNat)
  | .entryModeSet i s => some (0x04 + 2 * i.toNat + s.toNat)
  | .displayControl d c b => some (0x08 + 4 * d.toNat + 2 * c.toNat + b.toNat)
  | .cursorShift s r u => some (0x10 + 8 * s.toNat + 4 * r.toNat + u.toNat)
  | .functionSet4 n f u => some (0x20 + 8 * n.toNat + 4 * f.toNat + u.toNat)
  | .functionSet8 n f u => some (0x30 + 8 * n.toNat + 4 * f.toNat + u.toNat)
  | .setCgramAddr a => some (0x40 + a.toNat)
  | .setDdramAddr a => some (0x80 + a.toNat)
  | .lcFset dl n f => some (0x20 + 16 * dl.toNat + 8 * n.toNat + 4 * f.toNat)
  | .lcDctl d c b => some (0x08 + 4 * d.toNat + 2 * c.toNat + b.toNat)
  | .lcLine1 off => some (0x80 + 0x00 + off.toNat)
  | .lcLine2 off => some (0x80 + 0x40 + off.toNat)
  | .btInit _ _ | .btWrite _ _ | .ebNibble _ _ _ _ | .lcInit _ _ | .lcCmd _ | .lcPutc _ | .lcPuts _ | .reserved _ => none

/-- The code of any command. -/
def commandCode (i : Instr) : Option Nat :=
  match i with
  | .lcCmd code => some code
  | i => familyCode i

/-- BT_INIT or LC_INIT. -/
def isInit : Instr → Bool
  | .btInit _ _ | .lcInit _ _ => true
  | _ => false

/-- LC_PUTC or LC_PUTS. -/
def isChars : Instr → Bool
  | .lcPutc _ | .lcPuts _ => true
  | _ => false

/-- BT_WRITE or EB_SEND_NIBBLE. -/
def isBusWrite : Instr → Bool
  | .btWrite _ _ | .ebNibble _ _ _ _ => true
  | _ => false

/-- The request has a reserved header (30_encoding.md R50) or an operand outside its type (R51). -/
def outOfRange (ids : BusIds) : Instr → Prop
  | .btInit sel clk => ¬ (sel = ids.first ∨ sel ∈ ids.others) ∨ clk = some 0
  | .lcInit sel clk => ¬ (sel = ids.first ∨ sel ∈ ids.others) ∨ clk = some 0
  | .btWrite addr data => 127 < addr ∨ ∃ b ∈ data, 255 < b
  | .ebNibble nib rs rw bl => 15 < nib ∨ 1 < rs ∨ 1 < rw ∨ 1 < bl
  | .lcCmd code => 255 < code
  | .lcPutc ch => 255 < ch
  | .lcPuts text => ∃ c ∈ text, 255 < c
  | .reserved _ => True
  | _ => False

/-- The results a request can return (60_exceptions.md R127). -/
def canReturn (i : Instr) (r : Result) : Prop :=
  match i with
  | .btInit _ _ => r = .ok ∨ r = .busBusy
  | .btWrite _ data =>
    r = .ok ∨ r = .nackAddr ∨ (∃ k < data.length, r = .nackData k) ∨ r = .timeout .start ∨ r = .timeout .addr ∨
      ∃ k < data.length, r = .timeout (.data k)
  | .lcInit _ _ =>
    r = .ok ∨ r = .busBusy ∨ r = .nackAddr ∨ r = .nackData 0 ∨ r = .timeout .start ∨ r = .timeout .addr ∨
      r = .timeout (.data 0)
  | .reserved _ => False
  | _ => r = .ok ∨ r = .nackAddr ∨ r = .nackData 0 ∨ r = .timeout .start ∨ r = .timeout .addr ∨ r = .timeout (.data 0)

/-- The request ended with the result `r`. -/
def returned (s t : State) (r : Result) : Prop := t.results = s.results ++ [r]

/-- No reset is the next input. -/
def noReset (s : State) : Prop := ∀ rest, nextOffer s.inbox ≠ .reset rest

/-- The three fields of the bus handle are the same. -/
def sameHandle (s t : State) : Prop :=
  t.core.btValid = s.core.btValid ∧ t.core.btSel = s.core.btSel ∧ t.core.btClk = s.core.btClk

/-- The sequencer is idle, or the core is hung. -/
def idleOrHung (t : State) : Prop :=
  t.core.hung = true ∨
    (t.core.seqBusy = false ∧ t.core.curReq = none ∧ t.core.upc = 0 ∧ t.core.btPhase = .idle)

/-- What every request leaves alone: the parameters and the inputs stay; the trace, the results and the fault set grow at the
end at most; a refusal changes the mark alone; only in HANG mode does the core hang; the sequencer is left idle or hung. -/
def appendsOnly (s t : State) : Prop :=
  t.params = s.params ∧ t.inbox = s.inbox ∧ (∃ evs, t.core.trace = s.core.trace ++ evs) ∧
    (t.results = s.results ∨ ∃ r, returned s t r) ∧ (t.core.refused = s.core.refused ∨ t = s.marked) ∧
    (t.core.faults = s.core.faults ∨ ∃ f q, t.core.faults = s.core.faults ++ [(f, q)]) ∧
    (t.core.hung = s.core.hung ∨ s.params.errorMode = .hang) ∧ (t.core.refused = false → idleOrHung t)

/-- The state with another clock rate in the handle. -/
def withClk (c : Nat) (s : State) : State := { s with core := { s.core with btClk := c } }

/-- The state with another `lc_state`. -/
def withLc (st : LcState) (s : State) : State := { s with core := { s.core with lcState := st } }

/-- The state with another selector and clock rate in the handle. -/
def withHandle (sel clk : Nat) (s : State) : State := { s with core := { s.core with btSel := sel, btClk := clk } }

/-- The state with another error mode. -/
def withMode (m : ErrorMode) (s : State) : State := { s with params := { s.params with errorMode := m } }

/-- The state with other timing parameters: the five minima and the bound of the acknowledgment wait. -/
def withTimes (short long poweron init1 init2 wait : Nat) (s : State) : State :=
  { s with params := { s.params with
    tShortMin := short, tLongMin := long, tPoweronMin := poweron, tInit1Min := init1, tInit2Min := init2
    ackTimeout := wait } }

/-- Every byte of the events is the expander's address byte or carries `rs`, RW = 0 and the backlight value of the parameters. -/
def lcBytes (p : Params) (rs : Bit) (evs : List Event) : Prop :=
  ∀ b a, Event.byte b a ∈ evs →
    b.toNat = p.slaveAddr.toNat * 2 ∨ (b.getLsbD 0 = p.bl.getLsbD 0 ∧ b.getLsbD 2 = false ∧ b.getLsbD 3 = rs.getLsbD 0)

end Sys2Proof.Claim

open Sys2Proof.Claim

/-! ### Reset -/

/-- R29: the registers whose reset value the spec gives have it, for any parameters, and the core waits for a request. (The
values of `bt_sel` and `bt_clk` are the model's choice, log entry 1, and are not stated; that a waiting core is a step that
leaves the state as it is, is the model's choice, log entry 4.) -/
def Obligations.ResetLeavesTheSpecsValues : Prop :=
  ∀ p : Params, let c := (State.resetWith p).core
    c.btValid = false ∧ c.lcState = .uninit ∧ c.seqBusy = false ∧ c.curReq = none ∧ c.upc = 0 ∧ c.btPhase = .idle ∧
      c.faults = [] ∧ c.refused = false ∧ c.hung = false ∧ c.trace = [] ∧
      step (State.resetWith p) = .next (State.resetWith p)

/-- R30, R29, R146: a reset gives every register its reset value whatever the core is doing, returns no result, and leaves the
devices as they are; then the core waits. (The list of inputs, what is left of it, and that a waiting core is a step that leaves
the state as it is, are the model's choice, log entry 4; that the results already returned stay on a list is the model's choice,
log entry 5.) -/
def Obligations.ResetEventRestoresTheRegisters : Prop :=
  ∀ (s : State) (rest : List Input), s.inbox = .reset :: rest → ∃ t, step s = .next t ∧
    t.core.btValid = false ∧ t.core.lcState = .uninit ∧ t.core.seqBusy = false ∧ t.core.curReq = none ∧ t.core.upc = 0 ∧
      t.core.btPhase = .idle ∧ t.core.faults = [] ∧ t.core.refused = false ∧ t.core.hung = false ∧ t.core.trace = [] ∧
      t.params = s.params ∧ t.env = s.env ∧ t.results = s.results ∧ t.inbox = rest ∧ (rest = [] → step t = .next t)

/-- R14, R29: `bt_sel` and `bt_clk` are never read while `bt_valid = 0`: a request does the same whatever they hold. -/
def Obligations.UnsetHandleIsNeverRead : Prop :=
  ∀ (i : Instr) (s t : State) (sel clk : Nat), s.core.btValid = false → exec i s = .next t →
    exec i (withHandle sel clk s) = .next (if t.core.btValid then t else withHandle sel clk t)

/-! ### Encodings -/

/-- R84, R52: ENCODE is `nib * 16 + rs * 8 + rw * 4 + en * 2 + bl`, and each byte is ENCODE of exactly one tuple. -/
def Obligations.EncodeIsABijection : Prop :=
  (∀ (nib : Nibble) (rs rw en bl : Bit),
    (expanderByte nib rs rw en bl).toNat =
      nib.toNat * 16 + rs.toNat * 8 + rw.toNat * 4 + en.toNat * 2 + bl.toNat) ∧
  ∀ b : Byte, ∃! x : Nibble × Bit × Bit × Bit × Bit, expanderByte x.1 x.2.1 x.2.2.1 x.2.2.2.1 x.2.2.2.2 = b

/-- R90, R91: SEND_BYTE writes the four data bytes `b0 .. b3`, and DECODE gives the byte back; in each pair EN is 1 then 0, RS is
the given one, RW is 0, and nothing but EN differs. -/
def Obligations.NibbleSplitRoundTrip : Prop :=
  ∀ (p : Params) (v : Byte) (rs bl : Bit), ∃ b0 b1 b2 b3 : Byte,
    sendByte p v rs bl = [b0, b1, b2, b3].map (fun b => .write p.slaveAddr [b]) ∧
    [b0, b1, b2, b3].map BitVec.toNat = logicalByte v.toNat rs.toNat bl.toNat ∧
    decodeSent b0 b1 b2 b3 = v ∧
    (∀ x ∈ [(b0, b1), (b2, b3)],
      x.1.getLsbD 1 = true ∧ x.2.getLsbD 1 = false ∧ x.1.getLsbD 3 = rs.getLsbD 0 ∧ x.2.getLsbD 3 = rs.getLsbD 0 ∧
      x.1.getLsbD 2 = false ∧ x.2.getLsbD 2 = false ∧ ∀ k ≠ 1, x.1.getLsbD k = x.2.getLsbD k)

/-- R32: the address byte of a write is `addr * 2`, its direction bit 0. -/
def Obligations.AddressByteIsAWrite : Prop :=
  ∀ addr : Addr7, (addrByte addr).toNat = addr.toNat * 2 ∧ (addrByte addr).getLsbD 0 = false

/-- R54, R61: every code matches exactly one row, which its highest set bit gives; and its row gives its delay class. -/
def Obligations.FamiliesPartitionTheCodes : Prop :=
  ∀ c : Byte,
    (∀ fam : CmdFamily, fam.covers c = true ↔ fam = family c) ∧
    (family c = .none ↔ c.toNat = 0) ∧ (family c = .clearDisplay ↔ c.toNat = 1) ∧
    (family c = .returnHome ↔ 2 ≤ c.toNat ∧ c.toNat < 4) ∧ (family c = .entryModeSet ↔ 4 ≤ c.toNat ∧ c.toNat < 8) ∧
    (family c = .displayControl ↔ 8 ≤ c.toNat ∧ c.toNat < 16) ∧
    (family c = .cursorShift ↔ 16 ≤ c.toNat ∧ c.toNat < 32) ∧
    (family c = .functionSet4 ↔ 32 ≤ c.toNat ∧ c.toNat < 48) ∧
    (family c = .functionSet8 ↔ 48 ≤ c.toNat ∧ c.toNat < 64) ∧
    (family c = .setCgramAddr ↔ 64 ≤ c.toNat ∧ c.toNat < 128) ∧ (family c = .setDdramAddr ↔ 128 ≤ c.toNat) ∧
    (delayClass c = .long ↔ family c = .clearDisplay ∨ family c = .returnHome)

/-- R62: the pseudo-instructions and the families are LC_CMD with the codes their fields give; `lc.clear` and `lc.home` are the fixed
codes 0x01 and 0x02; the assembler accepts a line offset of 0..63 only. -/
def Obligations.PseudoInstructionsAreCommands : Prop :=
  (∀ (i : Instr) (n : Nat), familyCode i = some n → i.asRequest = .lcCmd n ∧ n < 256) ∧
  (asmClear.asRequest = .lcCmd 0x01 ∧ encode asmClear = [0x04, 0x01]) ∧
  (asmHome.asRequest = .lcCmd 0x02 ∧ encode asmHome = [0x04, 0x02]) ∧
  ∀ off : Nat,
    (off ≤ 63 → (asmLine1 off).map Instr.asRequest = some (.lcCmd (0x80 + off)) ∧
      (asmLine2 off).map Instr.asRequest = some (.lcCmd (0xC0 + off))) ∧
    (63 < off → asmLine1 off = none ∧ asmLine2 off = none)

/-- Words written out from R49, R54 and R68 decode to the instructions they stand for. (That a reserved header is one byte without
operands is the model's choice, log entry 15.) -/
def Obligations.ListedWordsDecode : Prop :=
  decode [0x00, 0x02, 0x00, 0x06, 0x1A, 0x80] = .instr (.btInit 2 (some 400000)) [] ∧
  decode [0x01, 0x27, 0x02, 0x08, 0x00] = .instr (.btWrite 0x27 [0x08, 0x00]) [] ∧
  decode [0x02, 0xED] = .instr (.ebNibble 0xE 1 1 1) [] ∧
  decode [0x03, 0x01, 0x00, 0x00, 0x00, 0x00] = .instr (.lcInit 1 none) [] ∧
  decode [0x04, 0x28] = .instr (.functionSet4 1 0 0) [] ∧
  decode [0x04, 0xC5] = .instr (.setDdramAddr 0x45) [] ∧
  decode [0x05, 0x4D] = .instr (.lcPutc 0x4D) [] ∧
  decode [0x06, 0x48, 0x69, 0x00] = .instr (.lcPuts [0x48, 0x69]) [] ∧
  decode [0x07] = .instr (.reserved 0x07) []

/-- R68: the decoder reads back what the encoder wrote, of every instruction that has a listing form, whatever bytes follow; the
instruction read is the same request, and the same instruction but for a second name of a command. (The listing form of a
reserved header is the model's choice, log entry 15.) -/
def Obligations.DecodeReadsWhatEncodeWrote : Prop :=
  ∀ i : Instr, i.listable = true →
    (∀ rest, decode (encode i ++ rest) = .instr i.normal rest) ∧ i.normal.asRequest = i.asRequest ∧
    (commandCode i = none → i.normal = i) ∧ (∀ c : Byte, (Instr.ofCode c).normal = .ofCode c)

/-- R68: the bytes the decoder read are the listing form of the instruction it gave. (The listing form of a reserved header is the
model's choice, log entry 15.) -/
def Obligations.EncodeWritesWhatDecodeRead : Prop :=
  ∀ (bytes rest : List Byte) (i : Instr), decode bytes = .instr i rest → bytes = encode i ++ rest ∧ i.listable = true

/-! ### The port -/

/-- R22: a request is taken exactly when the sequencer is idle, the core not hung, nothing refused and the fault set empty;
accepting sets the three sequencer registers. (That a closed port is answered by a fault of `exec`, its name, and the order hung,
refused, faulted, busy in which the names are given, are the model's choice, log entry 13: R131 check 1 names `seq_busy` and
`hung` together, before the refusal mark and the fault set.) -/
def Obligations.PortTakesARequestOnlyWhenOpen : Prop :=
  (∀ (i : Instr) (s : State),
    ((∃ t, exec i s = .next t) ↔
      s.core.seqBusy = false ∧ s.core.hung = false ∧ s.core.refused = false ∧ s.core.faults = []) ∧
    (s.core.hung = true → exec i s = .fault .hung) ∧
    (s.core.hung = false → s.core.refused = true → exec i s = .fault .quiescentRefused) ∧
    (s.core.hung = false → s.core.refused = false → s.core.faults ≠ [] → exec i s = .fault .quiescentFaulted) ∧
    (s.core.hung = false → s.core.refused = false → s.core.faults = [] → s.core.seqBusy = true → exec i s = .fault .busy)) ∧
  ∀ (q : Instr) (s : State), accept q s =
    { s with core := { s.core with seqBusy := true, curReq := some q, upc := 0 } }

/-- R21, R22: a core that is hung, or quiescent after a refusal or a fault, has no step until a reset. (The name a
closed port is answered with, where more than one reason holds, is the model's choice, log entry 13.) -/
def Obligations.HaltedCoreHasNoStep : Prop :=
  ∀ s : State, noReset s →
    (s.core.hung = true → step s = .fault .hung) ∧
    (s.core.hung = false → s.core.refused = true → step s = .fault .quiescentRefused) ∧
    (s.core.hung = false → s.core.refused = false → s.core.faults ≠ [] → step s = .fault .quiescentFaulted)

/-- A step at an open port is `exec` of the request given next, a record or the first request of a listing, with the inputs after
it left; with nothing given the core waits. (The list of inputs is the model's, log entry 4.) -/
def Obligations.StepRunsTheNextRequest : Prop :=
  ∀ s : State, s.portOpen = true →
    (∀ q rest, s.inbox = .record q :: rest → step s = exec q (withInbox rest s)) ∧
    (∀ b bytes rest i more, s.inbox = .listing (b :: bytes) :: rest → decode (b :: bytes) = .instr i more →
      step s = exec i (withInbox (listingRest more rest) s)) ∧
    (s.inbox = [] → step s = .next s)

/-- A table word placed at an open port is what the next step runs, and its listing leaves nothing behind. (How a table word is
read is the model's choice, log entry 10.) -/
def Obligations.FetchWordRunsTheTableInstruction : Prop :=
  ∀ (s : State) (nbits w : Nat) (i : Instr), s.portOpen = true → decodeTableWord nbits w = some i →
    step (s.withFetchWord nbits w) = exec i s

/-- R68: a listing that spells no request is refused: an EB_SEND_NIBBLE byte with bit 1 set; and (log entry 7, the model's reading)
a listing cut short. (That the rest of the listing is dropped is the model's, log entry 7.) -/
def Obligations.MalformedListingIsRefused : Prop :=
  ∀ (s : State) (b : Byte) (bytes : List Byte) (rest : List Input), s.portOpen = true →
    s.inbox = .listing (b :: bytes) :: rest →
    (∀ c more, b = 0x02 → bytes = c :: more → c.getLsbD 1 = true → step s = .next (withInbox rest s).marked) ∧
    (∀ why, decode (b :: bytes) = .rejected why → step s = .next (withInbox rest s).marked)

/-- R130, R51: a request with an operand outside its type is refused: the mark is set and nothing else changes, whatever the state
of the core behind the port, and then the core is quiescent; one whose operands are in range is never refused. -/
def Obligations.OutOfRangeRequestIsRefused : Prop :=
  ∀ (i : Instr) (s : State), s.portOpen = true →
    (outOfRange s.params.busIds i →
      exec i s = .next { s with core := { s.core with refused := true } } ∧
      ∀ j, exec j { s with core := { s.core with refused := true } } = .fault .quiescentRefused) ∧
    (¬ outOfRange s.params.busIds i → ∀ t, exec i s = .next t → t.core.refused = false)

/-- R50: a request whose header is 0x07..0xFF is refused, as a listing and as a record. -/
def Obligations.ReservedHeaderIsRefused : Prop :=
  ∀ (header : Byte) (bytes : List Byte) (rest : List Input) (s : State), s.portOpen = true →
    exec (.reserved header) s = .next { s with core := { s.core with refused := true } } ∧
    (7 ≤ header.toNat → s.inbox = .listing (header :: bytes) :: rest →
      ∃ t, step s = .next t ∧ t.core = { s.core with refused := true } ∧ t.results = s.results ∧ t.env = s.env)

/-! ### Bus Transport -/

/-- R69, R72: from a bus that is not initialised, BT_INIT on an idle bus writes the handle, with the default clock rate where none
is named, and shows BUSINIT. -/
def Obligations.BusInitWritesTheHandle : Prop :=
  ∀ (s : State) (sel : Nat) (clk : Option Nat), s.portOpen = true → ¬ outOfRange s.params.busIds (.btInit sel clk) →
    s.core.btValid = false → idleAnswer s = .idle →
    exec (.btInit sel clk) s = .next
      { s with
        core := { s.core with
          btValid := true, btSel := sel, btClk := clk.getD s.params.clkDefault
          curReq := none, upc := 0, btPhase := .idle
          trace := s.core.trace ++ [Event.busInit sel (clk.getD s.params.clkDefault)] }
        env := { s.env with idle := s.env.idle.skip 1 }
        results := s.results ++ [.ok] }

/-- R69: a second BT_INIT with the same selector and the same effective clock rate returns OK with no event and no query. -/
def Obligations.BusInitAgainIsIdempotent : Prop :=
  ∀ (s : State) (clk : Option Nat), s.portOpen = true → ¬ outOfRange s.params.busIds (.btInit s.core.btSel clk) →
    s.core.btValid = true → clk.getD s.params.clkDefault = s.core.btClk →
    exec (.btInit s.core.btSel clk) s = .next (s.ended [] s.core.lcState s.env .ok)

/-- R71: BT_INIT or LC_INIT with another selector or another effective clock rate raises HANDLE_CHANGED: it writes no register,
emits no event and returns no result. -/
def Obligations.ChangedHandleFaults : Prop :=
  ∀ (s : State) (sel : Nat) (clk : Option Nat), s.portOpen = true → ¬ outOfRange s.params.busIds (.btInit sel clk) →
    s.core.btValid = true → ¬ (sel = s.core.btSel ∧ clk.getD s.params.clkDefault = s.core.btClk) →
    exec (.btInit sel clk) s = .next (s.faulted .handleChanged (.btInit sel clk)) ∧
    (s.core.lcState ≠ .failed → exec (.lcInit sel clk) s = .next (s.faulted .handleChanged (.lcInit sel clk)))

/-- R69: on a busy bus BT_INIT returns BUS_BUSY and writes nothing, so that a later one may try again. -/
def Obligations.BusyBusIsReported : Prop :=
  ∀ (s : State) (sel : Nat) (clk : Option Nat), s.portOpen = true → ¬ outOfRange s.params.busIds (.btInit sel clk) →
    s.params.errorMode = .ret → s.core.btValid = false → idleAnswer s = .busy →
    exec (.btInit sel clk) s =
      .next (s.ended [] s.core.lcState { s.env with idle := s.env.idle.skip 1 } .busBusy)

/-- R73, R75, R79: BT_WRITE on a clean bus, for any address and any list of bytes, the empty one too. -/
def Obligations.BusWriteSendsItsBytes : Prop :=
  ∀ (s : State) (addr : Nat) (data : List Nat), s.portOpen = true → ¬ outOfRange s.params.busIds (.btWrite addr data) →
    s.core.btValid = true → s.clean 1 (data.length + 1) = true →
    exec (.btWrite addr data) s =
      .next (s.ended (transaction addr data) s.core.lcState (s.env.after 1 (data.length + 1)) .ok)

/-- R74, R79: BT_WRITE, of no bytes too, returns OK exactly when START completes and every byte, the address byte included, is
answered ACK; then its transaction is what it shows. -/
def Obligations.BusWriteSucceedsIffAcknowledged : Prop :=
  ∀ (s t : State) (addr : Nat) (data : List Nat), ¬ outOfRange s.params.busIds (.btWrite addr data) →
    s.core.btValid = true → exec (.btWrite addr data) s = .next t →
    (returned s t .ok ↔ s.clean 1 (data.length + 1) = true) ∧
    (returned s t .ok → t.core.trace = s.core.trace ++ transaction addr data)

/-- R76: at a NACK on the address byte or on a data byte uWRITE sends no further byte, emits STOP and fails. -/
def Obligations.BusWriteStopsAtNack : Prop :=
  ∀ (s : State) (addr : Nat) (data : List Nat), s.portOpen = true → ¬ outOfRange s.params.busIds (.btWrite addr data) →
    s.params.errorMode = .ret → s.core.btValid = true → s.clean 1 0 = true →
    (ackAnswer s = .nack → exec (.btWrite addr data) s =
      .next (s.ended [.start, .byte (BitVec.ofNat 8 (addr * 2)) .nack, .stop] s.core.lcState (s.env.after 1 1) .nackAddr)) ∧
    (∀ pre b post, data = pre ++ b :: post → s.clean 1 (pre.length + 1) = true →
      (s.env.ack.skip (pre.length + 1)).head Config.freeAck = .nack → exec (.btWrite addr data) s =
        .next (s.ended ([.start, .byte (BitVec.ofNat 8 (addr * 2)) .ack] ++ pre.map (fun b => .byte (BitVec.ofNat 8 b) .ack) ++
          [.byte (BitVec.ofNat 8 b) .nack, .stop]) s.core.lcState (s.env.after 1 (pre.length + 2)) (.nackData pre.length)))

/-- R77: at a STALL on START, on the address byte or on a data byte uWRITE sends no further byte, emits ABORT and fails with the
phase. -/
def Obligations.BusWriteAbortsAtStall : Prop :=
  ∀ (s : State) (addr : Nat) (data : List Nat), s.portOpen = true → ¬ outOfRange s.params.busIds (.btWrite addr data) →
    s.params.errorMode = .ret → s.core.btValid = true →
    (startAnswer s = .stall → exec (.btWrite addr data) s =
      .next (s.ended [.start, .abort] s.core.lcState (s.env.after 1 0) (.timeout .start))) ∧
    (s.clean 1 0 = true → ackAnswer s = .stall → exec (.btWrite addr data) s =
      .next (s.ended [.start, .byte (BitVec.ofNat 8 (addr * 2)) .stall, .abort] s.core.lcState (s.env.after 1 1)
        (.timeout .addr))) ∧
    (∀ pre b post, data = pre ++ b :: post → s.clean 1 (pre.length + 1) = true →
      (s.env.ack.skip (pre.length + 1)).head Config.freeAck = .stall → exec (.btWrite addr data) s =
        .next (s.ended ([.start, .byte (BitVec.ofNat 8 (addr * 2)) .ack] ++ pre.map (fun b => .byte (BitVec.ofNat 8 b) .ack) ++
          [.byte (BitVec.ofNat 8 b) .stall, .abort]) s.core.lcState (s.env.after 1 (pre.length + 2))
          (.timeout (.data pre.length))))

/-- R128 (NOT_READY at a bus write): BT_WRITE and EB_SEND_NIBBLE on a bus that is not initialised fault before any event. -/
def Obligations.BusWriteBeforeInitFaults : Prop :=
  ∀ (i : Instr) (s : State), isBusWrite i = true → s.portOpen = true → ¬ outOfRange s.params.busIds i →
    s.core.btValid = false → exec i s = .next (s.faulted .notReady i)

/-! ### Expander Byte Encoder -/

/-- R85, R86, R87: EB_SEND_NIBBLE on a clean bus: two transactions, EN = 1 then EN = 0, with RS, RW and the backlight as given, no
delay; in every state of the LC. -/
def Obligations.NibbleIsSentInTwoTransactions : Prop :=
  ∀ (s : State) (nib rs rw bl : Nat), s.portOpen = true → ¬ outOfRange s.params.busIds (.ebNibble nib rs rw bl) →
    s.core.btValid = true → s.clean 2 4 = true →
    exec (.ebNibble nib rs rw bl) s =
      .next (s.ended (xfers s.params (nibble nib rs rw bl)) s.core.lcState (s.env.after 2 4) .ok)

/-- R88: if the EN = 1 write fails, EB_SEND_NIBBLE is just that write: no EN = 0 write follows. -/
def Obligations.FailedFirstWriteEndsTheNibble : Prop :=
  ∀ (s t : State) (nib rs rw bl : Nat) (r : Result), ¬ outOfRange s.params.busIds (.ebNibble nib rs rw bl) →
    s.params.errorMode = .ret →
    exec (.btWrite s.params.slaveAddr.toNat [nib * 16 + rs * 8 + rw * 4 + 2 + bl]) s = .next t → returned s t r → r ≠ .ok →
    exec (.ebNibble nib rs rw bl) s = .next t

/-- R85, R89: after an EN = 1 write that succeeds, EB_SEND_NIBBLE does what a BT_WRITE of the EN = 0 byte does next, and ends with
its result. -/
def Obligations.SecondWriteEndsTheNibble : Prop :=
  ∀ (s t u : State) (nib rs rw bl : Nat) (r : Result), ¬ outOfRange s.params.busIds (.ebNibble nib rs rw bl) →
    s.params.errorMode = .ret →
    exec (.btWrite s.params.slaveAddr.toNat [nib * 16 + rs * 8 + rw * 4 + 2 + bl]) s = .next t → returned s t .ok →
    exec (.btWrite s.params.slaveAddr.toNat [nib * 16 + rs * 8 + rw * 4 + bl]) t = .next u → returned t u r →
    exec (.ebNibble nib rs rw bl) s = .next { u with results := s.results ++ [r] }

/-! ### LCD Controller -/

/-- R101: the gate: which LC request faults in which state of the LC, with no event and no register changed but the fault set; in
the states in which it runs it raises no fault of the gate's. -/
def Obligations.GateOfTheLcRequests : Prop :=
  ∀ (i : Instr) (s : State), s.portOpen = true → ¬ outOfRange s.params.busIds i →
    (∀ sel clk, i = .lcInit sel clk →
      (s.core.lcState = .failed → exec i s = .next (s.faulted .systemFailed i)) ∧
      (s.core.lcState ≠ .failed → ∀ t, exec i s = .next t → t.core.faults = [] ∨ t.core.faults = [(.handleChanged, i)])) ∧
    ((commandCode i).isSome = true ∨ isChars i = true →
      (s.core.lcState = .uninit → exec i s = .next (s.faulted .notReady i.asRequest)) ∧
      (s.core.lcState = .mode8 → exec i s = .next (s.faulted .mode8Misuse i.asRequest)) ∧
      (s.core.lcState = .failed → exec i s = .next (s.faulted .systemFailed i.asRequest)) ∧
      (s.core.lcState = .ready → s.core.btValid = true → ∀ t, exec i s = .next t → t.core.faults = []))

/-- R93, R94, R102, R112: LC_INIT on a clean bus, from UNINIT, READY or MODE8: with a bus to initialise, and with one initialised
already with the same arguments (no second BUSINIT). -/
def Obligations.LcInitRunsTheInitSequence : Prop :=
  ∀ (s : State) (sel : Nat) (clk : Option Nat), s.portOpen = true → ¬ outOfRange s.params.busIds (.lcInit sel clk) →
    s.core.lcState ≠ .failed → s.clean 8 16 = true →
    (s.core.btValid = false → idleAnswer s = .idle → exec (.lcInit sel clk) s = .next
      { s with
        core := { s.core with
          btValid := true, btSel := sel, btClk := clk.getD s.params.clkDefault, lcState := .ready
          curReq := none, upc := 0, btPhase := .idle
          trace := s.core.trace ++ [Event.busInit sel (clk.getD s.params.clkDefault)] ++ initEvents s.params }
        env := { s.env.after 8 16 with idle := s.env.idle.skip 1 }
        results := s.results ++ [.ok] }) ∧
    (s.core.btValid = true → sel = s.core.btSel → clk.getD s.params.clkDefault = s.core.btClk →
      exec (.lcInit sel clk) s = .next (s.ended (initEvents s.params) .ready (s.env.after 8 16) .ok))

/-- R102: after an LC_INIT that returned OK, an LC_INIT with the same arguments from any READY state with that handle, the one
just reached or a later one, re-runs the init sequence and leaves READY and the handle as they are; the trace has one more
init sequence and no second BUSINIT. -/
def Obligations.LcInitTwiceIsIdempotent : Prop :=
  ∀ (s t : State) (sel : Nat) (clk : Option Nat), exec (.lcInit sel clk) s = .next t → returned s t .ok →
    t.core.lcState = .ready ∧ t.core.btValid = true ∧ ∀ u : State,
      u.params = t.params → sameHandle t u → u.core.lcState = .ready → u.portOpen = true → u.clean 8 16 = true →
      exec (.lcInit sel clk) u = .next (u.ended (initEvents u.params) .ready (u.env.after 8 16) .ok)

/-- R95: a failure result of LC_INIT leaves FAILED, after which every LC request raises SYSTEM_FAILED; nothing follows the failing
transaction on the trace, and a busy bus shows nothing. -/
def Obligations.FailedLcInitIsFatal : Prop :=
  ∀ (s t : State) (sel : Nat) (clk : Option Nat) (r : Result), s.params.errorMode = .ret →
    exec (.lcInit sel clk) s = .next t → returned s t r → r ≠ .ok →
    t.core.lcState = .failed ∧
    (∃ evs, t.core.trace = s.core.trace ++ evs ∧
      (r = .busBusy ∧ evs = [] ∨ r ≠ .busBusy ∧ (evs.getLast? = some .stop ∨ evs.getLast? = some .abort))) ∧
    ∀ j, ¬ outOfRange t.params.busIds j →
      (commandCode j).isSome = true ∨ isChars j = true ∨ (∃ sel clk, j = .lcInit sel clk) →
      exec j t = .next (t.faulted .systemFailed j.asRequest)

/-- R97, R98, R99, R113: LC_CMD in READY on a clean bus, for every code: the four data bytes, the delay class of the code, OK; MODE8
exactly after the codes 0x30..0x3F. -/
def Obligations.CommandIsSentAndDelayed : Prop :=
  ∀ (s : State) (code : Nat), s.portOpen = true → code < 256 → s.core.lcState = .ready → s.core.btValid = true →
    s.clean 4 8 = true →
    exec (.lcCmd code) s = .next
      (s.ended
        (xfers s.params
          [code / 16 * 16 + 2 + s.params.bl.toNat, code / 16 * 16 + s.params.bl.toNat,
           code % 16 * 16 + 2 + s.params.bl.toNat, code % 16 * 16 + s.params.bl.toNat] ++ [.delay (delayOf code)])
        (if code / 16 = 3 then .mode8 else .ready) (s.env.after 4 8) .ok)

/-- R54, R62, R114 to R125: each command family and each pseudo-instruction in READY on a clean bus is the command of its code. -/
def Obligations.FamiliesAreSentAsTheirCodes : Prop :=
  ∀ (i : Instr) (code : Nat) (s : State), familyCode i = some code → s.portOpen = true → s.core.lcState = .ready →
    s.core.btValid = true → s.clean 4 8 = true →
    exec i s = .next
      (s.ended (command s.params code) (if code / 16 = 3 then .mode8 else .ready) (s.env.after 4 8) .ok)

/-- R103: LC_PUTC in READY on a clean bus, for every character, 0x00 too. -/
def Obligations.CharacterIsSentAndDelayed : Prop :=
  ∀ (s : State) (ch : Nat), s.portOpen = true → ch < 256 → s.core.lcState = .ready → s.core.btValid = true →
    s.clean 4 8 = true →
    exec (.lcPutc ch) s = .next (s.ended (character s.params ch) .ready (s.env.after 4 8) .ok)

/-- R64, R104, R105, R106: LC_PUTS in READY on a clean bus sends the characters before the first 0x00 in order, each with its delay,
however many; none of an empty string. LC_PUTC sends a 0x00 as a character. -/
def Obligations.StringIsSentUpToItsZero : Prop :=
  ∀ (s : State) (chars after : List Nat), s.portOpen = true → (∀ c ∈ chars, 0 < c ∧ c < 256) → (∀ c ∈ after, c < 256) →
    s.core.lcState = .ready → s.core.btValid = true → s.clean (4 * chars.length) (8 * chars.length) = true →
    ∀ text, (text = chars ∨ text = chars ++ 0 :: after) →
    exec (.lcPuts text) s = .next
      (s.ended (chars.flatMap (character s.params)) .ready (s.env.after (4 * chars.length) (8 * chars.length)) .ok) ∧
    (s.clean 4 8 = true →
      exec (.lcPutc 0x00) s = .next (s.ended (character s.params 0x00) .ready (s.env.after 4 8) .ok))

/-- R108: a failure result of a command or of characters leaves `lc_state` unchanged and the port open. -/
def Obligations.FailedCommandLeavesReady : Prop :=
  ∀ (i : Instr) (s t : State) (r : Result), (commandCode i).isSome = true ∨ isChars i = true →
    s.params.errorMode = .ret → exec i s = .next t → returned s t r → r ≠ .ok →
    s.core.lcState = .ready ∧ t.core.lcState = .ready ∧ t.portOpen = true

/-! ### Ends of a request -/

/-- R107, R133: the first micro-operation that fails ends the request: the trace holds what the ones before it show and the failing
transaction, and nothing after it. (That `upc` of a hung core is the failing one's is the model's reading, log entry 6.) -/
def Obligations.FirstFailureEndsTheRequest : Prop :=
  ∀ (i : Instr) (s t : State), exec i s = .next t →
    (t.core.hung = true ∨ ∃ r, returned s t r ∧ r ≠ .ok) →
    (t.core.trace = s.core.trace ∧ isInit i = true ∧ s.core.btValid = false) ∨
    ∃ n addr data evs r, (programOf s.params i)[n]? = some (.write addr data) ∧ FailedTransaction addr data evs r ∧
      t.core.trace = s.core.trace ++ ((programOf s.params i).take n).flatMap (MicroOp.okEvents s.core.btValid) ++ evs ∧
      (s.params.errorMode = .ret → returned s t r) ∧ (s.params.errorMode = .hang → t.core.upc = n)

/-- R129: a request that raises a fault changes nothing but the fault set and the sequencer's registers. -/
def Obligations.FaultChangesNothingElse : Prop :=
  ∀ (i : Instr) (s t : State), exec i s = .next t → t.core.faults ≠ [] →
    ∃ f, t = s.faulted f i.asRequest ∧ ∀ j, exec j t = .fault .quiescentFaulted

/-- R127, R133: a request ends in exactly one way: with one result, one of those R127 lists for it; with one fault; refused; or, in
HANG mode, hung. -/
def Obligations.OneOutcomePerRequest : Prop :=
  ∀ (i : Instr) (s t : State), exec i s = .next t →
    ((∃ r, returned s t r ∧ canReturn i r) ∧ t.core.faults = [] ∧ t.core.refused = false ∧ t.core.hung = false) ∨
    (t.results = s.results ∧ (∃ f, t.core.faults = [(f, i.asRequest)]) ∧ t.core.refused = false ∧ t.core.hung = false) ∨
    (t.results = s.results ∧ t.core.faults = [] ∧ t.core.refused = true ∧ t.core.hung = false) ∨
    (t.results = s.results ∧ t.core.faults = [] ∧ t.core.refused = false ∧ t.core.hung = true ∧
      s.params.errorMode = .hang)

/-- R132, R81: with ERROR_MODE = HANG a request shows the same events and writes the same handle, faults and refusals as with RETURN;
where RETURN gives a failure result it hangs instead: busy with its request, no result, `lc_state` as it was, and no step. Where
RETURN gives none the two modes do the same. (That `cur_req` of a hung core is the request is the model's reading, log entry
6.) -/
def Obligations.HangShowsWhatReturnShows : Prop :=
  ∀ (i : Instr) (s t : State), s.params.errorMode = .ret → exec i s = .next t →
    ∃ u, exec i (withMode .hang s) = .next u ∧
      u.core.trace = t.core.trace ∧ u.env = t.env ∧ sameHandle t u ∧ u.core.faults = t.core.faults ∧
      u.core.refused = t.core.refused ∧
      (∀ r, returned s t r → r ≠ .ok →
        u.core.hung = true ∧ u.core.seqBusy = true ∧ u.core.curReq = some i.asRequest ∧ u.results = s.results ∧
        u.core.lcState = s.core.lcState ∧ (noReset u → step u = .fault .hung)) ∧
      ((∀ r, returned s t r → r = .ok) → u = withMode .hang t)

/-! ### Frames -/

/-- R28: BT_INIT, BT_WRITE, EB_SEND_NIBBLE and a reserved header never change `lc_state`; BT_WRITE, EB_SEND_NIBBLE and a reserved header
never change the handle nor ask whether the bus is idle; BT_INIT sends nothing and never changes a valid handle. -/
def Obligations.FrameOfTheBusRequests : Prop :=
  ∀ (i : Instr) (s t : State), exec i s = .next t →
    (isBusWrite i = true ∨ (∃ h, i = .reserved h) →
      appendsOnly s t ∧ t.core.lcState = s.core.lcState ∧ sameHandle s t ∧ t.env.idle = s.env.idle) ∧
    (∀ sel clk, i = .btInit sel clk →
      appendsOnly s t ∧ t.core.lcState = s.core.lcState ∧ (s.core.btValid = true → sameHandle s t) ∧
      t.env.start = s.env.start ∧ t.env.ack = s.env.ack ∧
      (t.core.trace = s.core.trace ∨ ∃ sel clk, t.core.trace = s.core.trace ++ [.busInit sel clk]))

/-- R28, R99: commands and characters never change the handle nor ask whether the bus is idle; characters never change `lc_state`, and
a command changes it only to MODE8, only with a code 0x30..0x3F that was sent completely. LC_INIT never changes a valid handle. -/
def Obligations.FrameOfTheLcRequests : Prop :=
  ∀ (i : Instr) (s t : State), exec i s = .next t →
    (isChars i = true → appendsOnly s t ∧ sameHandle s t ∧ t.env.idle = s.env.idle ∧ t.core.lcState = s.core.lcState) ∧
    (∀ code, commandCode i = some code →
      appendsOnly s t ∧ sameHandle s t ∧ t.env.idle = s.env.idle ∧
      (t.core.lcState = s.core.lcState ∨ code / 16 = 3 ∧ t.core.lcState = .mode8 ∧ returned s t .ok)) ∧
    (∀ sel clk, i = .lcInit sel clk →
      appendsOnly s t ∧ (s.core.btValid = true → sameHandle s t) ∧
      (t.core.lcState = s.core.lcState ∨ t.core.lcState = .ready ∧ returned s t .ok ∨
        t.core.lcState = .failed ∧ ∃ r, returned s t r ∧ r ≠ .ok))

/-- R17, R33: every byte an LC request sends is the expander's address byte or carries the backlight parameter and RW = 0, with RS = 1
for characters and RS = 0 otherwise. -/
def Obligations.LcRequestsSendNoReadAndKeepTheBacklight : Prop :=
  ∀ (i : Instr) (s t : State), exec i s = .next t → ∃ evs, t.core.trace = s.core.trace ++ evs ∧
    ((commandCode i).isSome = true ∨ (∃ sel clk, i = .lcInit sel clk) → lcBytes s.params 0 evs) ∧
    (isChars i = true → lcBytes s.params 1 evs)

/-! ### Rules of the whole machine -/

/-- R15: once valid, the handle never changes but by a reset. -/
def Obligations.ValidHandleIsImmutable : Prop :=
  ∀ s t : State, noReset s → s.core.btValid = true → step s = .next t → sameHandle s t

/-- R19, R20, R21, R23: without a reset the trace and the results only grow at the end, no fault leaves the fault set, and the refusal
mark and the hung flag stay set. -/
def Obligations.MarksAreStickyAndTheTraceGrows : Prop :=
  ∀ s t : State, noReset s → step s = .next t →
    (∃ evs, t.core.trace = s.core.trace ++ evs) ∧ (∃ rs, t.results = s.results ++ rs) ∧
    (∀ x ∈ s.core.faults, x ∈ t.core.faults) ∧ (s.core.refused = true → t.core.refused = true) ∧
    (s.core.hung = true → t.core.hung = true) ∧ t.params = s.params

/-- The invariant holds right after reset, for parameters in their ranges. -/
def Obligations.ResetHasTheInvariant : Prop :=
  ∀ p : Params, p.inRange = true → (State.resetWith p).Inv

/-- Every step keeps the invariant, whatever the environment answers. -/
def Obligations.EveryStepKeepsTheInvariant : Prop :=
  ∀ s t : State, s.Inv → step s = .next t → t.Inv

/-- R18: a whole request as one step does what the sequencer does one micro-operation at a time from the request's acceptance.
(That a step of the model is a whole request is the model's reading, log entry 8, and what counts as a micro-operation is log
entry 11.) -/
def Obligations.WholeRequestIsItsMicroSteps : Prop :=
  ∀ (i : Instr) (s : State), s.portOpen = true → ¬ outOfRange s.params.busIds i → gate i s.core.lcState = none →
    exec i s = .next (microSteps ((programOf s.params i).length + 1) (accept i.asRequest s))

/-- R82: no event, result or state of a request that initialises nothing depends on the clock rate in the handle. -/
def Obligations.ClockRateHasNoEffect : Prop :=
  ∀ (i : Instr) (s t : State) (c : Nat), isInit i = false → exec i s = .next t →
    exec i (withClk c s) = .next (withClk c t)

/-- R77, R160: no meaning reads the delay minima or the bound of the acknowledgment wait. -/
def Obligations.TimingParametersAreNeverRead : Prop :=
  ∀ (i : Instr) (s t : State) (short long poweron init1 init2 wait : Nat), exec i s = .next t →
    exec i (withTimes short long poweron init1 init2 wait s) = .next (withTimes short long poweron init1 init2 wait t)

/-- R75, R85, R95: BT requests and EB_SEND_NIBBLE neither read nor change `lc_state`. -/
def Obligations.BusRequestsIgnoreTheLcState : Prop :=
  ∀ (i : Instr) (s t : State) (st : LcState), isBusWrite i = true ∨ (∃ sel clk, i = .btInit sel clk) → exec i s = .next t →
    exec i (withLc st s) = .next (withLc st t)

/-! ### What the LCD receives, and how long it takes -/

/-- R27, R36, R91: on a clean bus the observer of R27 sees LC_PUTS deliver exactly its characters, with RS = 1, high nibble first,
whatever the expander's lines were before; and a command exactly its code, with RS = 0. (The observer is informative in the spec,
and its conventions are the model's, log entry 9: the lines are sampled at the falling edge of EN, the RS of a byte is its high
nibble's, and the first nibble of the request is taken as a high nibble, that is, the LCD is in phase before it.) -/
def Obligations.LcdReceivesWhatWasSent : Prop :=
  ∀ (s : State) (taken : Nat → Bool) (o : Observed), s.portOpen = true → s.core.lcState = .ready → s.core.btValid = true →
    o.phase = .outside →
    (∀ chars : List Byte, (∀ c ∈ chars, c ≠ 0) → s.clean (4 * chars.length) (8 * chars.length) = true →
      ∃ t evs new, exec (.lcPuts (chars.map BitVec.toNat)) s = .next t ∧ t.core.trace = s.core.trace ++ evs ∧
        (observe s.params.slaveAddr taken evs o).nibbles = o.nibbles ++ new ∧
        pairNibbles new = chars.map (fun c => (1, c)) ∧ new.length = 2 * chars.length) ∧
    (∀ code : Byte, s.clean 4 8 = true →
      ∃ t evs new, exec (.lcCmd code.toNat) s = .next t ∧ t.core.trace = s.core.trace ++ evs ∧
        (observe s.params.slaveAddr taken evs o).nibbles = o.nibbles ++ new ∧ pairNibbles new = [(0, code)] ∧
        new.length = 2)

/-- R158: the minimum durations at 100 kHz, in microseconds, with the default delay minima of R7. -/
def Obligations.MinimumDurations : Prop :=
  ∀ p : Params, p.tShortMin = 40 → p.tLongMin = 1500 → p.tPoweronMin = 40000 → p.tInit1Min = 4100 → p.tInit2Min = 100 →
    traceMin p 100000 (initEvents p) = 45720 ∧
    (∀ code < 256, traceMin p 100000 (command p code) = if code = 1 ∨ code = 2 ∨ code = 3 then 2220 else 760) ∧
    (∀ ch < 256, traceMin p 100000 (character p ch) = 760) ∧
    (∀ chars : List Nat, traceMin p 100000 (chars.flatMap (character p)) = 760 * chars.length) ∧
    (∀ nib rs rw bl, traceMin p 100000 (xfers p (nibble nib rs rw bl)) = 360) ∧
    (∀ addr data, traceMin p 100000 (transaction addr data) = 90 * (data.length + 1))
end

