-- ==== Sys2Proof/Laws/Decode.lean ====
section
/-! SUPPORT. Laws/Decode.lean: command codes and their families; the pieces of the listing form read back what was written. -/

namespace Sys2Proof

/-! ### Families -/

theorem ofCode_clearDisplay : Instr.ofCode clearDisplayCode = .clearDisplay := by decide

theorem ofCode_returnHome (u : Bit) : Instr.ofCode (returnHomeCode u) = .returnHome u := by revert u; decide

theorem ofCode_entryModeSet (i s : Bit) : Instr.ofCode (entryModeSetCode i s) = .entryModeSet i s := by
  revert i s; decide

theorem ofCode_displayControl (d c b : Bit) : Instr.ofCode (displayControlCode d c b) = .displayControl d c b := by
  revert d c b; decide

theorem ofCode_cursorShift (s r : Bit) (u : BitVec 2) : Instr.ofCode (cursorShiftCode s r u) = .cursorShift s r u := by
  revert s r u; decide

theorem ofCode_functionSet4 (n f : Bit) (u : BitVec 2) : Instr.ofCode (functionSetCode 0 n f u) = .functionSet4 n f u := by
  revert n f u; decide

theorem ofCode_functionSet8 (n f : Bit) (u : BitVec 2) : Instr.ofCode (functionSetCode 1 n f u) = .functionSet8 n f u := by
  revert n f u; decide

theorem ofCode_setCgramAddr (a : BitVec 6) : Instr.ofCode (setCgramAddrCode a) = .setCgramAddr a := by
  revert a; decide

set_option maxRecDepth 2000 in
theorem ofCode_setDdramAddr (a : BitVec 7) : Instr.ofCode (setDdramAddrCode a) = .setDdramAddr a := by
  revert a; decide

set_option maxRecDepth 4000 in
/-- A code's instruction is the LC_CMD request of that code. -/
theorem asRequest_ofCode (c : Byte) : (Instr.ofCode c).asRequest = .lcCmd c.toNat := by
  revert c; decide

/-! ### Bytes -/

theorem byteOf_toNat (n : Nat) (h : n < 256) : (byteOf n).toNat = n := by
  simp [byteOf]; omega

theorem map_byteOf_toNat (xs : List Nat) (h : ∀ x ∈ xs, x < 256) : (xs.map byteOf).map BitVec.toNat = xs := by
  induction xs with
  | nil => rfl
  | cons x xs ih =>
    simp only [List.map_cons, byteOf_toNat x (h x List.mem_cons_self), ih (fun y hy => h y (List.mem_cons_of_mem _ hy))]

theorem clkOperand_clkBytes (clk : Option Nat) (h : clkListable clk = true) :
    ∃ b3 b2 b1 b0, clkBytes clk = [b3, b2, b1, b0] ∧ clkOperand b3 b2 b1 b0 = clk := by
  refine ⟨_, _, _, _, rfl, ?_⟩
  rcases clk with _ | c
  · simp [clkOperand, byteOf]
  · simp only [clkListable, Bool.and_eq_true, decide_eq_true_eq] at h
    simp only [clkOperand, byteOf, BitVec.toNat_ofNat, Option.getD_some]
    have : ((c / 16777216 % 2 ^ 8 * 256 + c / 65536 % 2 ^ 8) * 256 + c / 256 % 2 ^ 8) * 256 + c % 2 ^ 8 = c := by omega
    rw [this, if_neg (by omega)]

theorem splitAtZero_encoded (xs rest : List Byte) (h : ∀ x ∈ xs, x ≠ 0#8) :
    splitAtZero (xs ++ 0#8 :: rest) = some (xs, rest) := by
  induction xs with
  | nil => simp [splitAtZero]
  | cons x xs ih =>
    simp [splitAtZero, h x List.mem_cons_self, ih (fun y hy => h y (List.mem_cons_of_mem _ hy))]

theorem decodeNibble_operand (nib rs rw bl : Nat) (rest : List Byte) (hn : nib < 16) (hs : rs < 2) (hw : rw < 2)
    (hb : bl < 2) : decodeNibble (nibbleOperand nib rs rw bl :: rest) = .instr (.ebNibble nib rs rw bl) rest := by
  interval_cases nib <;> interval_cases rs <;> interval_cases rw <;> interval_cases bl <;> rfl

end Sys2Proof
end

