-- ==== Sys2Proof/Laws/State.lean ====
section
/-! SUPPORT. Laws/State.lean: for each update of the state, one lemma per field. -/

namespace Sys2Proof.Machine

open Sys2Proof

variable (s : State)

@[simp] theorem askedIdle_core : (askedIdle s).core = s.core := rfl
@[simp] theorem askedIdle_params : (askedIdle s).params = s.params := rfl
@[simp] theorem askedIdle_env : (askedIdle s).env = { s.env with idle := s.env.idle.tail } := rfl
@[simp] theorem askedIdle_inbox : (askedIdle s).inbox = s.inbox := rfl
@[simp] theorem askedIdle_results : (askedIdle s).results = s.results := rfl

@[simp] theorem askedStart_core : (askedStart s).core = s.core := rfl
@[simp] theorem askedStart_params : (askedStart s).params = s.params := rfl
@[simp] theorem askedStart_env : (askedStart s).env = { s.env with start := s.env.start.tail } := rfl
@[simp] theorem askedStart_inbox : (askedStart s).inbox = s.inbox := rfl
@[simp] theorem askedStart_results : (askedStart s).results = s.results := rfl

@[simp] theorem askedAck_core : (askedAck s).core = s.core := rfl
@[simp] theorem askedAck_params : (askedAck s).params = s.params := rfl
@[simp] theorem askedAck_env : (askedAck s).env = { s.env with ack := s.env.ack.tail } := rfl
@[simp] theorem askedAck_inbox : (askedAck s).inbox = s.inbox := rfl
@[simp] theorem askedAck_results : (askedAck s).results = s.results := rfl

@[simp] theorem emit_core (e : Event) : (emit e s).core = { s.core with trace := s.core.trace ++ [e] } := rfl
@[simp] theorem emit_params (e : Event) : (emit e s).params = s.params := rfl
@[simp] theorem emit_env (e : Event) : (emit e s).env = s.env := rfl
@[simp] theorem emit_inbox (e : Event) : (emit e s).inbox = s.inbox := rfl
@[simp] theorem emit_results (e : Event) : (emit e s).results = s.results := rfl

@[simp] theorem setPhase_core (ph : BusPhase) : (setPhase ph s).core = { s.core with btPhase := ph } := rfl
@[simp] theorem setPhase_params (ph : BusPhase) : (setPhase ph s).params = s.params := rfl
@[simp] theorem setPhase_env (ph : BusPhase) : (setPhase ph s).env = s.env := rfl
@[simp] theorem setPhase_inbox (ph : BusPhase) : (setPhase ph s).inbox = s.inbox := rfl
@[simp] theorem setPhase_results (ph : BusPhase) : (setPhase ph s).results = s.results := rfl

@[simp] theorem setLc_core (st : LcState) : (setLc st s).core = { s.core with lcState := st } := rfl
@[simp] theorem setLc_params (st : LcState) : (setLc st s).params = s.params := rfl
@[simp] theorem setLc_env (st : LcState) : (setLc st s).env = s.env := rfl
@[simp] theorem setLc_inbox (st : LcState) : (setLc st s).inbox = s.inbox := rfl
@[simp] theorem setLc_results (st : LcState) : (setLc st s).results = s.results := rfl

@[simp] theorem setHandle_core (sel clk : Nat) : (setHandle sel clk s).core = { s.core with btSel := sel, btClk := clk, btValid := true } := rfl
@[simp] theorem setHandle_params (sel clk : Nat) : (setHandle sel clk s).params = s.params := rfl
@[simp] theorem setHandle_env (sel clk : Nat) : (setHandle sel clk s).env = s.env := rfl
@[simp] theorem setHandle_inbox (sel clk : Nat) : (setHandle sel clk s).inbox = s.inbox := rfl
@[simp] theorem setHandle_results (sel clk : Nat) : (setHandle sel clk s).results = s.results := rfl

@[simp] theorem accept_core (q : Instr) : (accept q s).core = { s.core with seqBusy := true, curReq := some q, upc := 0 } := rfl
@[simp] theorem accept_params (q : Instr) : (accept q s).params = s.params := rfl
@[simp] theorem accept_env (q : Instr) : (accept q s).env = s.env := rfl
@[simp] theorem accept_inbox (q : Instr) : (accept q s).inbox = s.inbox := rfl
@[simp] theorem accept_results (q : Instr) : (accept q s).results = s.results := rfl

@[simp] theorem finish_core (r : Result) : (finish r s).core = s.core.idleSeq := rfl
@[simp] theorem finish_params (r : Result) : (finish r s).params = s.params := rfl
@[simp] theorem finish_env (r : Result) : (finish r s).env = s.env := rfl
@[simp] theorem finish_inbox (r : Result) : (finish r s).inbox = s.inbox := rfl
@[simp] theorem finish_results (r : Result) : (finish r s).results = s.results ++ [r] := rfl

@[simp] theorem refuse_core : (refuse s).core = { s.core with refused := true } := rfl
@[simp] theorem refuse_params : (refuse s).params = s.params := rfl
@[simp] theorem refuse_env : (refuse s).env = s.env := rfl
@[simp] theorem refuse_inbox : (refuse s).inbox = s.inbox := rfl
@[simp] theorem refuse_results : (refuse s).results = s.results := rfl

@[simp] theorem coreReset_core : (coreReset s).core = .reset := rfl
@[simp] theorem coreReset_params : (coreReset s).params = s.params := rfl
@[simp] theorem coreReset_env : (coreReset s).env = s.env := rfl
@[simp] theorem coreReset_inbox : (coreReset s).inbox = s.inbox := rfl
@[simp] theorem coreReset_results : (coreReset s).results = s.results := rfl

@[simp] theorem advance_core : (advance s).core = { s.core with upc := s.core.upc + 1 } := rfl
@[simp] theorem advance_params : (advance s).params = s.params := rfl
@[simp] theorem advance_env : (advance s).env = s.env := rfl
@[simp] theorem advance_inbox : (advance s).inbox = s.inbox := rfl
@[simp] theorem advance_results : (advance s).results = s.results := rfl

@[simp] theorem withInbox_core (inputs : List Input) : (withInbox inputs s).core = s.core := rfl
@[simp] theorem withInbox_params (inputs : List Input) : (withInbox inputs s).params = s.params := rfl
@[simp] theorem withInbox_env (inputs : List Input) : (withInbox inputs s).env = s.env := rfl
@[simp] theorem withInbox_inbox (inputs : List Input) : (withInbox inputs s).inbox = inputs := rfl
@[simp] theorem withInbox_results (inputs : List Input) : (withInbox inputs s).results = s.results := rfl

@[simp] theorem raiseFault_core (f : FaultKind) (q : Instr) : (raiseFault f q s).core = { s.core.idleSeq with
      faults := if (f, q) ∈ s.core.faults then s.core.faults else s.core.faults ++ [(f, q)] } := rfl
@[simp] theorem raiseFault_params (f : FaultKind) (q : Instr) : (raiseFault f q s).params = s.params := rfl
@[simp] theorem raiseFault_env (f : FaultKind) (q : Instr) : (raiseFault f q s).env = s.env := rfl
@[simp] theorem raiseFault_inbox (f : FaultKind) (q : Instr) : (raiseFault f q s).inbox = s.inbox := rfl
@[simp] theorem raiseFault_results (f : FaultKind) (q : Instr) : (raiseFault f q s).results = s.results := rfl

@[simp] theorem putByte_core (b : Byte) : (putByte b s).core = { s.core with trace := s.core.trace ++ [.byte b (ackAnswer s)] } := rfl
@[simp] theorem putByte_params (b : Byte) : (putByte b s).params = s.params := rfl
@[simp] theorem putByte_env (b : Byte) : (putByte b s).env = { s.env with ack := s.env.ack.tail } := rfl
@[simp] theorem putByte_inbox (b : Byte) : (putByte b s).inbox = s.inbox := rfl
@[simp] theorem putByte_results (b : Byte) : (putByte b s).results = s.results := rfl

@[simp] theorem idleSeq_btValid (c : CoreState) : c.idleSeq.btValid = c.btValid := rfl
@[simp] theorem idleSeq_btSel (c : CoreState) : c.idleSeq.btSel = c.btSel := rfl
@[simp] theorem idleSeq_btClk (c : CoreState) : c.idleSeq.btClk = c.btClk := rfl
@[simp] theorem idleSeq_lcState (c : CoreState) : c.idleSeq.lcState = c.lcState := rfl
@[simp] theorem idleSeq_seqBusy (c : CoreState) : c.idleSeq.seqBusy = false := rfl
@[simp] theorem idleSeq_curReq (c : CoreState) : c.idleSeq.curReq = none := rfl
@[simp] theorem idleSeq_upc (c : CoreState) : c.idleSeq.upc = 0 := rfl
@[simp] theorem idleSeq_btPhase (c : CoreState) : c.idleSeq.btPhase = .idle := rfl
@[simp] theorem idleSeq_faults (c : CoreState) : c.idleSeq.faults = c.faults := rfl
@[simp] theorem idleSeq_refused (c : CoreState) : c.idleSeq.refused = c.refused := rfl
@[simp] theorem idleSeq_hung (c : CoreState) : c.idleSeq.hung = c.hung := rfl
@[simp] theorem idleSeq_trace (c : CoreState) : c.idleSeq.trace = c.trace := rfl

end Sys2Proof.Machine
end

