-- ==== Sys2Proof/Laws/Ops.lean ====
section
/-! SUPPORT. Laws/Ops.lean: what the bus environment's answers, uBUSINIT and uWRITE can do. -/

namespace Sys2Proof.Machine

open Sys2Proof

/-! ### Answers -/

@[simp] theorem skip_zero {α : Type} (a : Answers α) : a.skip 0 = a := rfl

theorem skip_succ {α : Type} (n : Nat) (a : Answers α) : a.skip (n + 1) = a.tail.skip n := rfl

theorem skip_add {α : Type} (m n : Nat) (a : Answers α) : a.skip (m + n) = (a.skip m).skip n := by
  induction m generalizing a with
  | zero => simp
  | succ m ih => rw [Nat.succ_add, skip_succ, skip_succ, ih]

@[simp] theorem firstAre_zero {α : Type} [DecidableEq α] (free : Nat → α) (v : α) (a : Answers α) :
    a.firstAre free v 0 = true := rfl

theorem firstAre_succ {α : Type} [DecidableEq α] (free : Nat → α) (v : α) (n : Nat) (a : Answers α) :
    a.firstAre free v (n + 1) = true ↔ a.head free = v ∧ a.tail.firstAre free v n = true := by
  simp [Answers.firstAre]

theorem firstAre_add {α : Type} [DecidableEq α] (free : Nat → α) (v : α) (m n : Nat) (a : Answers α) :
    a.firstAre free v (m + n) = true ↔ a.firstAre free v m = true ∧ (a.skip m).firstAre free v n = true := by
  induction m generalizing a with
  | zero => simp
  | succ m ih => rw [Nat.succ_add, firstAre_succ, firstAre_succ, ih, skip_succ, and_assoc]

theorem Env.after_after (e : Env) (m n m' n' : Nat) : (e.after m n).after m' n' = e.after (m + m') (n + n') := by
  simp [Env.after, skip_add]

@[simp] theorem Env.after_zero (e : Env) : e.after 0 0 = e := rfl

theorem clean_add (s t : State) (m n m' n' : Nat) (h : t.env = s.env.after m n) :
    s.clean (m + m') (n + n') = true ↔ s.clean m n = true ∧ t.clean m' n' = true := by
  simp only [State.clean, h, Env.after, Bool.and_eq_true, firstAre_add]
  tauto

/-! ### The answers do not depend on the registers -/

theorem ackAnswer_congr {s t : State} (h : t.env = s.env) : ackAnswer t = ackAnswer s := by
  simp [ackAnswer, h]

@[simp] theorem idleAnswer_accept (q : Instr) (s : State) : idleAnswer (accept q s) = idleAnswer s := rfl

@[simp] theorem startAnswer_accept (q : Instr) (s : State) : startAnswer (accept q s) = startAnswer s := rfl

@[simp] theorem ackAnswer_accept (q : Instr) (s : State) : ackAnswer (accept q s) = ackAnswer s := rfl

@[simp] theorem ackAnswer_setPhase (ph : BusPhase) (s : State) : ackAnswer (setPhase ph s) = ackAnswer s := rfl

/-! ### A transaction runs -/

/-- What a transaction leaves alone: it appends `evs` to the trace, moves `bt_phase`, and uses answers of two queries. -/
structure Ran (s t : State) (evs : List Event) : Prop where
  core : t.core = { s.core with trace := s.core.trace ++ evs, btPhase := t.core.btPhase }
  params : t.params = s.params
  inbox : t.inbox = s.inbox
  results : t.results = s.results
  idle : t.env.idle = s.env.idle

theorem Ran.trans {s t u : State} {e e' : List Event} (h : Ran s t e) (h' : Ran t u e') : Ran s u (e ++ e') where
  core := by rw [h'.core, h.core]; simp
  params := h'.params.trans h.params
  inbox := h'.inbox.trans h.inbox
  results := h'.results.trans h.results
  idle := h'.idle.trans h.idle

theorem ran_setPhase (ph : BusPhase) (s : State) : Ran s (setPhase ph s) [] := by constructor <;> simp

theorem ran_emit (e : Event) (s : State) : Ran s (emit e s) [e] := by constructor <;> simp

theorem ran_askedStart (s : State) : Ran s (askedStart s) [] := by constructor <;> simp

theorem ran_putByte (b : Byte) (ph : BusPhase) (s : State) :
    Ran s (putByte b (setPhase ph s)) [.byte b (ackAnswer s)] := by constructor <;> simp

/-- Everything the data bytes of a transaction can do. -/
theorem sendData_cases (k : Nat) (data : List Byte) (s : State) :
    (∃ t, sendData k data s = (.ok, t) ∧ Ran s t (data.map (fun b => .byte b .ack) ++ [.stop]) ∧ t.core.btPhase = .idle ∧
      t.env = s.env.after 0 data.length ∧ s.clean 0 data.length = true) ∨
    (∃ t pre b post, data = pre ++ b :: post ∧ sendData k data s = (.fail (.nackData (k + pre.length)), t) ∧
      Ran s t (pre.map (fun b => .byte b .ack) ++ [.byte b .nack, .stop])) ∨
    (∃ t pre b post, data = pre ++ b :: post ∧ sendData k data s = (.fail (.timeout (.data (k + pre.length))), t) ∧
      Ran s t (pre.map (fun b => .byte b .ack) ++ [.byte b .stall, .abort])) := by
  induction data generalizing k s with
  | nil =>
    exact .inl ⟨_, rfl, (ran_setPhase _ _).trans ((ran_emit _ _).trans (ran_setPhase _ _)), rfl, rfl, rfl⟩
  | cons b rest ih =>
    have hp := ran_putByte b (.data k) s
    rcases ha : ackAnswer s with _ | _ | _
    · have hs : sendData k (b :: rest) s = sendData (k + 1) rest (putByte b (setPhase (.data k) s)) := by
        simp [sendData, ha]
      rw [ha] at hp
      rw [hs]
      rcases ih (k + 1) (putByte b (setPhase (.data k) s)) with
        ⟨t, h, hr, hi, he, hc⟩ | ⟨t, pre, c, post, h, h', hr⟩ | ⟨t, pre, c, post, h, h', hr⟩
      · refine .inl ⟨t, h, by simpa using hp.trans hr, hi, by simpa [Env.after, skip_succ] using he, ?_⟩
        simp only [State.clean, List.length_cons, firstAre_succ, Bool.and_eq_true, firstAre_zero, true_and] at hc ⊢
        exact ⟨ha, by simpa using hc⟩
      · exact .inr (.inl ⟨t, b :: pre, c, post, by simp [h], by rw [h']; simp; omega, by simpa using hp.trans hr⟩)
      · exact .inr (.inr ⟨t, b :: pre, c, post, by simp [h], by rw [h']; simp; omega, by simpa using hp.trans hr⟩)
    · refine .inr (.inl ⟨_, [], b, rest, rfl, by simp only [sendData, ha]; rfl, ?_⟩)
      rw [ha] at hp; exact hp.trans (ran_emit .stop _)
    · refine .inr (.inr ⟨_, [], b, rest, rfl, by simp only [sendData, ha]; rfl, ?_⟩)
      rw [ha] at hp; exact hp.trans (ran_emit .abort _)

/-- Everything uWRITE can do: it faults on a bus that is not initialised, or runs its transaction, or fails it. -/
theorem uWrite_cases (addr : Addr7) (data : List Byte) (s : State) :
    (s.core.btValid = false ∧ uWrite addr data s = (.raise .notReady, s)) ∨
    (s.core.btValid = true ∧ s.clean 1 (data.length + 1) = true ∧ ∃ t, uWrite addr data s = (.ok, t) ∧
      Ran s t (okTransaction addr data) ∧ t.core.btPhase = .idle ∧ t.env = s.env.after 1 (data.length + 1)) ∨
    (s.core.btValid = true ∧ ∃ t evs r, uWrite addr data s = (.fail r, t) ∧ Ran s t evs ∧
      FailedTransaction addr data evs r) := by
  rcases hv : s.core.btValid with _ | _
  · exact .inl ⟨rfl, by simp [uWrite, hv]⟩
  right
  have h0 : Ran s (askedStart (emit .start (setPhase .start s))) [.start] :=
    (ran_setPhase .start s).trans ((ran_emit .start _).trans (ran_askedStart _))
  rcases hst : startAnswer s with _ | _
  · have hw : uWrite addr data s = sendAddr addr data (askedStart (emit .start (setPhase .start s))) := by
      simp [uWrite, hv, hst]
    generalize hu : askedStart (emit .start (setPhase .start s)) = u at hw h0
    have hue : u.env = s.env.after 1 0 := by rw [← hu]; rfl
    have h1 := h0.trans (ran_putByte (addrByte addr) .addr u)
    rw [hw]
    rcases ha : ackAnswer u with _ | _ | _
    · rw [ha] at h1
      have hd : sendAddr addr data u = sendData 0 data (putByte (addrByte addr) (setPhase .addr u)) := by
        simp [sendAddr, ha]
      rw [hd]
      rcases sendData_cases 0 data (putByte (addrByte addr) (setPhase .addr u)) with
        ⟨t, h, hr, hi, he, hc⟩ | ⟨t, pre, c, post, h, h', hr⟩ | ⟨t, pre, c, post, h, h', hr⟩
      · refine .inl ⟨rfl, ?_, t, h, by simpa [okTransaction] using h1.trans hr, hi, ?_⟩
        · rw [show (1 : Nat) = 1 + 0 from rfl, Nat.add_comm data.length 1]
          refine (clean_add s (putByte (addrByte addr) (setPhase .addr u)) 1 1 0 data.length ?_).2 ⟨?_, hc⟩
          · simp [hue, Env.after, skip_succ]
          · simp only [State.clean, firstAre_succ, firstAre_zero, Bool.and_eq_true, and_true]
            refine ⟨hst, ?_⟩
            simpa [ackAnswer, hue, Env.after] using ha
        · rw [he, Nat.add_comm data.length 1]
          simp [hue, Env.after, skip_succ, skip_add]
      · refine .inr ⟨rfl, t, _, _, h', h1.trans hr, ?_⟩
        simpa using FailedTransaction.dataNack pre c post h
      · refine .inr ⟨rfl, t, _, _, h', h1.trans hr, ?_⟩
        simpa using FailedTransaction.dataStall pre c post h
    · rw [ha] at h1
      exact .inr ⟨rfl, _, _, _, by simp only [sendAddr, ha], h1.trans (ran_emit .stop _), .addrNack⟩
    · rw [ha] at h1
      exact .inr ⟨rfl, _, _, _, by simp only [sendAddr, ha], h1.trans (ran_emit .abort _), .addrStall⟩
  · exact .inr ⟨rfl, _, _, _, by simp only [uWrite, hv, hst, if_true], h0.trans (ran_emit .abort _), .startStall⟩

/-- The data bytes of a transaction on a clean bus. -/
theorem sendData_clean (k : Nat) (data : List Byte) (s : State) (hc : s.clean 0 data.length = true) :
    sendData k data s = (.ok, { s with
      core := { s.core with trace := s.core.trace ++ (data.map (fun b => .byte b .ack) ++ [.stop]), btPhase := .idle }
      env := s.env.after 0 data.length }) := by
  induction data generalizing k s with
  | nil => rfl
  | cons b rest ih =>
    simp only [State.clean, List.length_cons, firstAre_succ, Bool.and_eq_true, firstAre_zero, true_and] at hc
    have ha : ackAnswer s = .ack := hc.1
    have h := ih (k + 1) (putByte b (setPhase (.data k) s)) (by simpa [State.clean] using hc.2)
    simp only [sendData, ha, h]
    simp [Env.after, skip_succ, ha]

/-- uWRITE on a clean bus. -/
theorem uWrite_clean (addr : Addr7) (data : List Byte) (s : State) (hv : s.core.btValid = true)
    (hc : s.clean 1 (data.length + 1) = true) :
    uWrite addr data s = (.ok, { s with
      core := { s.core with trace := s.core.trace ++ okTransaction addr data, btPhase := .idle }
      env := s.env.after 1 (data.length + 1) }) := by
  simp only [State.clean, firstAre_succ, firstAre_zero, Bool.and_eq_true, and_true] at hc
  obtain ⟨hst, ha, hd⟩ := hc
  have hst' : startAnswer s = .ok := hst
  have ha' : ackAnswer (askedStart (emit .start (setPhase .start s))) = .ack := ha
  have h := sendData_clean 0 data (putByte (addrByte addr) (setPhase .addr (askedStart (emit .start (setPhase .start s)))))
    (by simpa [State.clean] using hd)
  simp only [uWrite, hv, if_true, hst', sendAddr, ha', h]
  simp [okTransaction, Env.after, skip_succ, ha', hv]

/-- Everything uBUSINIT can do. -/
theorem uBusInit_cases (sel clk : Nat) (s : State) :
    (s.core.btValid = true ∧ sel = s.core.btSel ∧ clk = s.core.btClk ∧ uBusInit sel clk s = (.ok, s)) ∨
    (s.core.btValid = true ∧ ¬ (sel = s.core.btSel ∧ clk = s.core.btClk) ∧
      uBusInit sel clk s = (.raise .handleChanged, s)) ∨
    (s.core.btValid = false ∧ idleAnswer s = .busy ∧ uBusInit sel clk s = (.fail .busBusy, askedIdle s)) ∨
    (s.core.btValid = false ∧ idleAnswer s = .idle ∧
      uBusInit sel clk s = (.ok, emit (.busInit sel clk) (setHandle sel clk (askedIdle s)))) := by
  unfold uBusInit
  rcases s.core.btValid with _ | _
  · rcases idleAnswer s with _ | _ <;> simp
  · by_cases h : sel = s.core.btSel ∧ clk = s.core.btClk
    · simp [h]
    · simp [h]

end Sys2Proof.Machine
end

