-- ==== Sys2Proof/Laws/PerInstr.lean ====
section
/-! SUPPORT. Laws/PerInstr.lean: the family RoundTrip: the decoder reads back what the encoder wrote, one lemma per constructor. -/

namespace Sys2Proof.Laws.RoundTrip

open Sys2Proof

/-- The decoder reads the instruction's listing form back, whatever bytes follow it. -/
def Statement (i : Instr) : Prop :=
  i.listable = true → ∀ rest, decode (encode i ++ rest) = .instr i.normal rest

/-- A command's listing form is read as its family. -/
theorem command (i : Instr) (c : Byte) (h : i.asRequest = .lcCmd c.toNat) : Statement i := by
  intro _ rest
  have hn : i.normal = .ofCode c := by simp [Instr.normal, h]
  have he : encode i = [0x04, c] := by simp [encode, h, encodeRequest, byteOf]
  rw [hn, he]
  rfl

theorem btInit (sel : Nat) (clk : Option Nat) : Statement (.btInit sel clk) := by
  intro h rest
  simp only [Instr.listable, Bool.and_eq_true, decide_eq_true_eq] at h
  obtain ⟨b3, b2, b1, b0, hb, hc⟩ := clkOperand_clkBytes clk h.2
  simp only [encode, Instr.asRequest, encodeRequest, hb, List.cons_append, List.nil_append]
  simp [decode, decodeInit, byteOf_toNat sel h.1, hc, Instr.normal, Instr.asRequest]

theorem btWrite (addr : Nat) (data : List Nat) : Statement (.btWrite addr data) := by
  intro h rest
  simp only [Instr.listable, Bool.and_eq_true, decide_eq_true_eq, List.all_eq_true] at h
  obtain ⟨⟨ha, hl⟩, hd⟩ := h
  have hm := map_byteOf_toNat data hd
  simp [encode, Instr.asRequest, encodeRequest, decode, decodeWrite, byteOf_toNat addr ha, byteOf_toNat _ hl,
    Instr.normal, List.take_left', List.drop_left']
  simpa using hm

theorem ebNibble (nib rs rw bl : Nat) : Statement (.ebNibble nib rs rw bl) := by
  intro h rest
  simp only [Instr.listable, Bool.and_eq_true, decide_eq_true_eq] at h
  simpa [encode, Instr.asRequest, encodeRequest, decode, Instr.normal] using
    decodeNibble_operand nib rs rw bl rest h.1.1.1 h.1.1.2 h.1.2 h.2

theorem lcInit (sel : Nat) (clk : Option Nat) : Statement (.lcInit sel clk) := by
  intro h rest
  simp only [Instr.listable, Bool.and_eq_true, decide_eq_true_eq] at h
  obtain ⟨b3, b2, b1, b0, hb, hc⟩ := clkOperand_clkBytes clk h.2
  simp only [encode, Instr.asRequest, encodeRequest, hb, List.cons_append, List.nil_append]
  simp [decode, decodeInit, byteOf_toNat sel h.1, hc, Instr.normal, Instr.asRequest]

theorem lcCmd (code : Nat) : Statement (.lcCmd code) := by
  intro h
  have hc : code < 256 := by simpa [Instr.listable] using h
  exact command _ (byteOf code) (by simp [Instr.asRequest, byteOf_toNat code hc]) h

theorem lcPutc (ch : Nat) : Statement (.lcPutc ch) := by
  intro h rest
  have hc : ch < 256 := by simpa [Instr.listable] using h
  simp [encode, Instr.asRequest, encodeRequest, decode, decodeByte, Instr.normal, byteOf_toNat ch hc]

theorem lcPuts (text : List Nat) : Statement (.lcPuts text) := by
  intro h rest
  simp only [Instr.listable, List.all_eq_true, Bool.and_eq_true, decide_eq_true_eq] at h
  have hm := map_byteOf_toNat text (fun x hx => (h x hx).2)
  have hz : ∀ x ∈ text.map byteOf, x ≠ 0#8 := by
    intro x hx
    obtain ⟨n, hn, rfl⟩ := List.mem_map.1 hx
    intro h0
    have := byteOf_toNat n (h n hn).2
    rw [h0] at this
    have := (h n hn).1
    simp_all
  have hs := splitAtZero_encoded (text.map byteOf) rest hz
  simp [encode, Instr.asRequest, encodeRequest, decode, decodePuts, Instr.normal, hs]
  simpa using hm

theorem reserved (header : Byte) : Statement (.reserved header) := by
  intro h rest
  simp only [Instr.listable, decide_eq_true_eq] at h
  simp only [encode, Instr.asRequest, encodeRequest, List.cons_append, List.nil_append, decode]
  split <;> first | omega | rfl

theorem cmdNone : Statement .cmdNone := command _ 0 rfl

theorem clearDisplay : Statement .clearDisplay := command _ _ rfl

theorem returnHome (u : Bit) : Statement (.returnHome u) := command _ _ rfl

theorem entryModeSet (i s : Bit) : Statement (.entryModeSet i s) := command _ _ rfl

theorem displayControl (d c b : Bit) : Statement (.displayControl d c b) := command _ _ rfl

theorem cursorShift (s r : Bit) (u : BitVec 2) : Statement (.cursorShift s r u) := command _ _ rfl

theorem functionSet4 (n f : Bit) (u : BitVec 2) : Statement (.functionSet4 n f u) := command _ _ rfl

theorem functionSet8 (n f : Bit) (u : BitVec 2) : Statement (.functionSet8 n f u) := command _ _ rfl

theorem setCgramAddr (a : BitVec 6) : Statement (.setCgramAddr a) := command _ _ rfl

theorem setDdramAddr (a : BitVec 7) : Statement (.setDdramAddr a) := command _ _ rfl

theorem lcFset (dl n f : Bit) : Statement (.lcFset dl n f) := command _ _ rfl

theorem lcDctl (d c b : Bit) : Statement (.lcDctl d c b) := command _ _ rfl

theorem lcLine1 (off : BitVec 6) : Statement (.lcLine1 off) := command _ _ rfl

theorem lcLine2 (off : BitVec 6) : Statement (.lcLine2 off) := command _ _ rfl

end Sys2Proof.Laws.RoundTrip
end

