-- ==== Sys2Proof/Laws/Program.lean ====
section
/-! SUPPORT. Laws/Program.lean: what the port and the sequencer can do: the port's conditions, one induction over a micro-program,
and a micro-program on a clean bus. -/

namespace Sys2Proof.Machine

open Sys2Proof

/-! ### The port -/

theorem portFault_none_iff (s : State) : portFault s.core = none ↔ s.portOpen = true := by
  unfold portFault haltFault State.portOpen
  rcases s.core.hung <;> rcases s.core.refused <;> rcases s.core.seqBusy <;> rcases s.core.faults.isEmpty <;> simp

theorem haltFault_none_of_open {s : State} (h : s.portOpen = true) : haltFault s.core = none := by
  rw [← portFault_none_iff] at h
  unfold portFault at h
  split at h
  · simp at h
  · assumption

theorem portOpen_iff (s : State) : s.portOpen = true ↔
    s.core.seqBusy = false ∧ s.core.hung = false ∧ s.core.refused = false ∧ s.core.faults = [] := by
  unfold State.portOpen
  rcases s.core.hung <;> rcases s.core.refused <;> rcases s.core.seqBusy <;> rcases s.core.faults <;> simp

theorem serve_of_open (q : Instr) (program : List MicroOp) {s : State} (h : s.portOpen = true) :
    serve q program s = .next (served q program s) := by
  rw [← portFault_none_iff] at h
  simp only [serve, h]

theorem serve_next_iff (q : Instr) (program : List MicroOp) (s t : State) :
    serve q program s = .next t ↔ s.portOpen = true ∧ t = served q program s := by
  rw [← portFault_none_iff]
  unfold serve
  rcases portFault s.core with _ | f
  · simpa using eq_comm
  · simp

theorem raiseFault_of_open {s : State} (h : s.portOpen = true) (f : FaultKind) (q : Instr) :
    raiseFault f q (accept q s) = s.faulted f q := by
  have hf := ((portOpen_iff s).1 h).2.2.2
  simp [raiseFault, accept, State.faulted, CoreState.idleSeq, hf]

/-! ### Every instruction is a request with its micro-program -/

/-- What `exec` does, said once for all instructions. -/
theorem exec_eq_serve (i : Instr) (s : State) : exec i s = serve i.asRequest (programOf s.params i) s := by
  cases i <;>
    simp only [exec, programOf, Instr.asRequest, execBtInit, execBtWrite, execEbNibble, execLcInit, execLcCmd, execLcPutc,
      execLcPuts, execReserved, execCmdNone, execClearDisplay, execReturnHome, execEntryModeSet, execDisplayControl,
      execCursorShift, execFunctionSet4, execFunctionSet8, execSetCgramAddr, execSetDdramAddr, execLcFset, execLcDctl,
      execLcLine1, execLcLine2, serveCommand, BitVec.ofNat_toNat, BitVec.setWidth_eq]
  rfl

theorem exec_next_iff (i : Instr) (s t : State) :
    exec i s = .next t ↔ s.portOpen = true ∧ t = served i.asRequest (programOf s.params i) s := by
  rw [exec_eq_serve, serve_next_iff]

@[simp] theorem asRequest_asRequest (i : Instr) : i.asRequest.asRequest = i.asRequest := by cases i <;> rfl

@[simp] theorem programOf_asRequest (p : Params) (i : Instr) : programOf p i.asRequest = programOf p i := by
  simp [programOf]

@[simp] theorem gate_asRequest (i : Instr) (st : LcState) : gate i.asRequest st = gate i st := by simp [gate]

@[simp] theorem isLcInit_asRequest (i : Instr) : isLcInit i.asRequest = isLcInit i := by simp [isLcInit]

/-! ### One induction over a micro-program -/

/-- If every micro-operation of a program that completes keeps `P`, and every way the request can end from `P` gives `Q`, then
running the program from `P` gives `Q`. -/
theorem runProgram_induction {P Q : State → Prop} (q : Instr) (program : List MicroOp) (s : State)
    (ok : ∀ op ∈ program, ∀ s t, P s → runOp op s = (.ok, t) → P (advance t))
    (done : ∀ s, P s → Q (finish .ok s))
    (fail : ∀ op ∈ program, ∀ s r t, P s → runOp op s = (.fail r, t) → Q (failWith r q t))
    (raise : ∀ op ∈ program, ∀ s f t, P s → runOp op s = (.raise f, t) → Q (raiseFault f q t))
    (h : P s) : Q (runProgram q program s) := by
  induction program generalizing s with
  | nil => exact done s h
  | cons op rest ih =>
    unfold runProgram
    rcases hr : runOp op s with ⟨e, t⟩
    rcases e with _ | r | f
    · exact ih _ (fun o ho => ok o (List.mem_cons_of_mem _ ho)) (fun o ho => fail o (List.mem_cons_of_mem _ ho))
        (fun o ho => raise o (List.mem_cons_of_mem _ ho)) (ok op List.mem_cons_self s t h hr)
    · exact fail op List.mem_cons_self s r t h hr
    · exact raise op List.mem_cons_self s f t h hr

/-! ### A micro-program on a clean bus -/

/-- The micro-operation is not a uBUSINIT. -/
def MicroOp.isPlain : MicroOp → Bool
  | .busInit _ _ => false
  | .write _ _ => true
  | .delay _ => true
  | .setLc _ => true

/-- How many START conditions it issues. -/
def MicroOp.starts : MicroOp → Nat
  | .write _ _ => 1
  | _ => 0

/-- How many bytes it sends. -/
def MicroOp.acks : MicroOp → Nat
  | .write _ data => data.length + 1
  | _ => 0

/-- `lc_state` after it. -/
def MicroOp.lcAfter (st : LcState) : MicroOp → LcState
  | .setLc st' => st'
  | _ => st

/-- A program without uBUSINIT, on an initialised bus whose answers are all good, runs to the end. -/
theorem runProgram_clean (q : Instr) (program : List MicroOp) (s : State)
    (hp : ∀ op ∈ program, op.isPlain = true) (hv : s.core.btValid = true)
    (hc : s.clean (program.map MicroOp.starts).sum (program.map MicroOp.acks).sum = true) :
    runProgram q program s =
      s.ended (program.flatMap (MicroOp.okEvents true)) (program.foldl MicroOp.lcAfter s.core.lcState)
        (s.env.after (program.map MicroOp.starts).sum (program.map MicroOp.acks).sum) .ok := by
  induction program generalizing s with
  | nil => simp [runProgram, finish, State.ended, CoreState.idleSeq]
  | cons op rest ih =>
    have hrest : ∀ o ∈ rest, o.isPlain = true := fun o ho => hp o (List.mem_cons_of_mem _ ho)
    rcases op with ⟨sel, clk⟩ | ⟨addr, data⟩ | cls | st
    · simpa [MicroOp.isPlain] using hp _ List.mem_cons_self
    · simp only [List.map_cons, List.sum_cons, MicroOp.starts, MicroOp.acks] at hc
      have hc1 := (clean_add s { s with
        core := { s.core with trace := s.core.trace ++ okTransaction addr data, btPhase := .idle }
        env := s.env.after 1 (data.length + 1) } _ _ _ _ rfl).1 hc
      have h := uWrite_clean addr data s hv hc1.1
      simp only [runProgram, runOp, h]
      rw [ih _ hrest (by simpa using hv) (by simpa [State.clean] using hc1.2)]
      simp [State.ended, CoreState.idleSeq, MicroOp.okEvents, MicroOp.starts, MicroOp.acks, MicroOp.lcAfter, Env.after_after]
    · simp only [runProgram, runOp, uDelay]
      rw [ih _ hrest (by simpa using hv) (by simpa [State.clean, MicroOp.starts, MicroOp.acks] using hc)]
      simp [State.ended, CoreState.idleSeq, MicroOp.okEvents, MicroOp.starts, MicroOp.acks, MicroOp.lcAfter]
    · simp only [runProgram, runOp]
      rw [ih _ hrest (by simpa using hv) (by simpa [State.clean, MicroOp.starts, MicroOp.acks] using hc)]
      simp [State.ended, CoreState.idleSeq, MicroOp.okEvents, MicroOp.starts, MicroOp.acks, MicroOp.lcAfter]

/-- Two states that differ in the sequencer's registers only end a request alike. -/
@[simp] theorem ended_accept (q : Instr) (s : State) (events : List Event) (lc : LcState) (env : Env) (r : Result) :
    (accept q s).ended events lc env r = s.ended events lc env r := rfl

@[simp] theorem clean_accept (q : Instr) (s : State) (m n : Nat) : (accept q s).clean m n = s.clean m n := rfl

/-! ### The programs -/

@[simp] theorem sendNibble_events (p : Params) (nib : Nibble) (rs rw bl : Bit) :
    (sendNibble p nib rs rw bl).flatMap (MicroOp.okEvents true) = okNibble p nib rs rw bl := rfl

@[simp] theorem sendByte_events (p : Params) (v : Byte) (rs bl : Bit) :
    (sendByte p v rs bl).flatMap (MicroOp.okEvents true) = okByte p v rs bl := rfl

@[simp] theorem putcProgram_events (p : Params) (ch : Byte) :
    (putcProgram p ch).flatMap (MicroOp.okEvents true) = okChar p ch := rfl

theorem lcCmdProgram_events (p : Params) (code : Byte) :
    (lcCmdProgram p code).flatMap (MicroOp.okEvents true) = okCommand p code := by
  unfold lcCmdProgram
  split <;> rfl

@[simp] theorem initSequence_events (p : Params) : (initSequence p).flatMap (MicroOp.okEvents true) = okInitSequence p := rfl

end Sys2Proof.Machine
end

