-- ==== Sys2Proof/Laws/Requests.lean ====
section
/-! SUPPORT. Laws/Requests.lean: what a request can do, said once: every way `exec` can end. -/

namespace Sys2Proof.Machine

open Sys2Proof

/-! ### A micro-program without uBUSINIT on an initialised bus -/

/-- How many START conditions a program issues. -/
def startsOf (program : List MicroOp) : Nat := (program.map MicroOp.starts).sum

/-- How many bytes a program sends. -/
def acksOf (program : List MicroOp) : Nat := (program.map MicroOp.acks).sum

@[simp] theorem startsOf_cons (op : MicroOp) (rest : List MicroOp) : startsOf (op :: rest) = op.starts + startsOf rest := rfl

@[simp] theorem acksOf_cons (op : MicroOp) (rest : List MicroOp) : acksOf (op :: rest) = op.acks + acksOf rest := rfl

/-- It runs to its end, on a bus that answers well, or one of its writes fails and ends it there. -/
theorem runProgram_plain (q : Instr) (program : List MicroOp) (s : State)
    (hp : ∀ op ∈ program, op.isPlain = true) (hv : s.core.btValid = true) :
    (s.clean (startsOf program) (acksOf program) = true ∧
      runProgram q program s =
        s.ended (program.flatMap (MicroOp.okEvents true)) (program.foldl MicroOp.lcAfter s.core.lcState)
          (s.env.after (startsOf program) (acksOf program)) .ok) ∨
    ∃ n addr data evs r ph env, program[n]? = some (.write addr data) ∧ FailedTransaction addr data evs r ∧
      env.idle = s.env.idle ∧
      runProgram q program s = failWith r q { s with
        core := { s.core with
          trace := s.core.trace ++ (program.take n).flatMap (MicroOp.okEvents true) ++ evs
          lcState := (program.take n).foldl MicroOp.lcAfter s.core.lcState
          upc := s.core.upc + n, btPhase := ph }
        env := env } := by
  induction program generalizing s with
  | nil => exact .inl ⟨rfl, by simp [startsOf, acksOf]; simp [runProgram, finish, State.ended, CoreState.idleSeq]⟩
  | cons op rest ih =>
    have hrest : ∀ o ∈ rest, o.isPlain = true := fun o ho => hp o (List.mem_cons_of_mem _ ho)
    -- a micro-operation that completes: what follows is the rest's
    have next : ∀ t : State, runOp op s = (.ok, t) → t.params = s.params → t.inbox = s.inbox → t.results = s.results →
        t.env = s.env.after op.starts op.acks → s.clean op.starts op.acks = true →
        (∃ ph, t.core = { s.core with
          trace := s.core.trace ++ op.okEvents true, lcState := op.lcAfter s.core.lcState, btPhase := ph }) →
        (s.clean (startsOf (op :: rest)) (acksOf (op :: rest)) = true ∧
          runProgram q (op :: rest) s =
            s.ended ((op :: rest).flatMap (MicroOp.okEvents true)) ((op :: rest).foldl MicroOp.lcAfter s.core.lcState)
              (s.env.after (startsOf (op :: rest)) (acksOf (op :: rest))) .ok) ∨
        ∃ n addr data evs r ph env, (op :: rest)[n]? = some (.write addr data) ∧ FailedTransaction addr data evs r ∧
          env.idle = s.env.idle ∧
          runProgram q (op :: rest) s = failWith r q { s with
            core := { s.core with
              trace := s.core.trace ++ ((op :: rest).take n).flatMap (MicroOp.okEvents true) ++ evs
              lcState := ((op :: rest).take n).foldl MicroOp.lcAfter s.core.lcState
              upc := s.core.upc + n, btPhase := ph }
            env := env } := by
      rintro t hr hpar hin hres henv hclean ⟨ph0, hcore⟩
      obtain ⟨core, params, env, inbox, results⟩ := t
      simp only at hpar hin hres henv hcore
      subst hpar hin hres henv
      rcases ih (advance ⟨core, s.params, s.env.after op.starts op.acks, s.inbox, s.results⟩) hrest (by subst hcore; simpa using hv) with
        ⟨hc, h⟩ | ⟨n, addr, data, evs, r, ph, env', hn, hf, hid', h⟩
      · left
        refine ⟨(clean_add s (advance ⟨core, s.params, s.env.after op.starts op.acks, s.inbox, s.results⟩) _ _ _ _ rfl).2 ⟨hclean, hc⟩, ?_⟩
        subst hcore
        simp only [runProgram, hr, h]
        simp [State.ended, CoreState.idleSeq, Env.after_after]
      · right
        refine ⟨n + 1, addr, data, evs, r, ph, env', by simpa using hn, hf, hid', ?_⟩
        subst hcore
        simp only [runProgram, hr, h]
        simp [Nat.add_assoc, Nat.add_comm 1 n]
    rcases op with ⟨sel, clk⟩ | ⟨addr, data⟩ | cls | st
    · simpa [MicroOp.isPlain] using hp _ List.mem_cons_self
    · rcases uWrite_cases addr data s with ⟨h, -⟩ | ⟨-, hc, t, h, hr, hi, he⟩ | ⟨-, t, evs, r, h, hr, hf⟩
      · rw [hv] at h; simp at h
      · exact next t h hr.params hr.inbox hr.results he hc ⟨t.core.btPhase, hr.core⟩
      · right
        refine ⟨0, addr, data, evs, r, t.core.btPhase, t.env, rfl, hf, hr.idle, ?_⟩
        simp only [runProgram, runOp, h]
        congr 1
        obtain ⟨core, params, env, inbox, results⟩ := t
        obtain ⟨h1, h2, h3, h4, h5⟩ := hr
        simp only at h1 h2 h3 h4 h5 ⊢
        subst h2 h3 h4
        rw [h1]
        simp
    · exact next _ rfl rfl rfl rfl rfl rfl ⟨_, rfl⟩
    · exact next _ rfl rfl rfl rfl rfl rfl ⟨s.core.btPhase, by simp [MicroOp.okEvents, MicroOp.lcAfter]⟩

/-! ### The shapes of the micro-programs -/

theorem sendNibble_plain (p : Params) (nib : Nibble) (rs rw bl : Bit) :
    ∀ op ∈ sendNibble p nib rs rw bl, op.isPlain = true := by
  intro op h
  simp only [sendNibble, uXfer, List.mem_cons, List.not_mem_nil, or_false] at h
  rcases h with rfl | rfl <;> rfl

theorem initSequence_plain (p : Params) : ∀ op ∈ initSequence p, op.isPlain = true := by
  intro op h
  simp only [initSequence, sendNibble, uXfer, List.mem_append, List.mem_cons, List.not_mem_nil, or_false] at h
  rcases h with ((((((((rfl | (rfl | rfl)) | rfl) | (rfl | rfl)) | rfl) | (rfl | rfl)) | rfl) | (rfl | rfl)) | rfl) <;> rfl

theorem putcProgram_plain (p : Params) (ch : Byte) : ∀ op ∈ putcProgram p ch, op.isPlain = true := by
  intro op h
  simp only [putcProgram, sendByte, sendNibble, uXfer, List.mem_append, List.mem_cons, List.not_mem_nil, or_false] at h
  rcases h with (((rfl | rfl) | (rfl | rfl)) | rfl) <;> rfl

/-- The selector and the effective clock rate of BT_INIT and LC_INIT. -/
def busArgs (p : Params) (i : Instr) : Option (Nat × Nat) :=
  match i.asRequest with
  | .btInit sel clk => some (sel, effectiveClk p clk)
  | .lcInit sel clk => some (sel, effectiveClk p clk)
  | _ => none

/-- BT_INIT and LC_INIT initialise the bus first, and only then. -/
theorem programOf_init (p : Params) (i : Instr) (sel clk : Nat) (h : busArgs p i = some (sel, clk)) :
    ∃ rest, programOf p i = .busInit sel clk :: rest ∧ ∀ op ∈ rest, op.isPlain = true := by
  cases i <;> simp only [busArgs, Instr.asRequest, Option.some.injEq, Prod.mk.injEq, reduceCtorEq] at h
  · obtain ⟨rfl, rfl⟩ := h
    exact ⟨[], rfl, by simp⟩
  · obtain ⟨rfl, rfl⟩ := h
    refine ⟨initSequence p ++ [.setLc .ready], rfl, ?_⟩
    intro op ho
    rcases List.mem_append.1 ho with ho | ho
    · exact initSequence_plain p op ho
    · rw [List.mem_singleton.1 ho]; rfl

theorem lcCmdProgram_plain (p : Params) (code : Byte) : ∀ op ∈ lcCmdProgram p code, op.isPlain = true := by
  intro op ho
  simp only [lcCmdProgram, List.mem_append, sendByte] at ho
  rcases ho with ((ho | ho) | ho) | ho
  · exact sendNibble_plain _ _ _ _ _ op ho
  · exact sendNibble_plain _ _ _ _ _ op ho
  · rw [List.mem_singleton.1 ho]; rfl
  · split at ho
    · rw [List.mem_singleton.1 ho]; rfl
    · simp at ho

/-- It writes first, if it does anything. -/
def WritesFirst (program : List MicroOp) : Prop :=
  program = [] ∨ ∃ addr data rest, program = .write addr data :: rest

theorem lcCmdProgram_writesFirst (p : Params) (code : Byte) : WritesFirst (lcCmdProgram p code) :=
  .inr ⟨p.slaveAddr, [_], _, rfl⟩

theorem putsProgram_plain (p : Params) (text : List Nat) : ∀ op ∈ putsProgram p text, op.isPlain = true := by
  intro op ho
  obtain ⟨c, -, hc⟩ := List.mem_flatMap.1 ho
  exact putcProgram_plain p c op hc

theorem putsProgram_writesFirst (p : Params) (text : List Nat) : WritesFirst (putsProgram p text) := by
  unfold putsProgram
  rcases sentChars text with _ | ⟨c, cs⟩
  · exact .inl rfl
  · exact .inr ⟨p.slaveAddr, [_], _, rfl⟩

/-- No other request has a uBUSINIT. -/
theorem programOf_noInit (p : Params) (i : Instr) (h : busArgs p i = none) :
    (∀ op ∈ programOf p i, op.isPlain = true) ∧ WritesFirst (programOf p i) := by
  unfold busArgs at h
  unfold programOf
  generalize i.asRequest = q at h
  cases q <;> simp only [reduceCtorEq] at h ⊢
  case btWrite addr data => exact ⟨by simp [btWriteProgram, MicroOp.isPlain], .inr ⟨_, _, _, rfl⟩⟩
  case ebNibble nib rs rw bl => exact ⟨sendNibble_plain _ _ _ _ _, .inr ⟨_, _, _, rfl⟩⟩
  case lcCmd code => exact ⟨lcCmdProgram_plain _ _, lcCmdProgram_writesFirst _ _⟩
  case lcPutc ch => exact ⟨putcProgram_plain _ _, .inr ⟨_, _, _, rfl⟩⟩
  case lcPuts text => exact ⟨putsProgram_plain _ _, putsProgram_writesFirst _ _⟩
  all_goals exact ⟨by simp, .inl rfl⟩

/-- The micro-operation is not a write of `lc_state`. -/
def MicroOp.keepsLc : MicroOp → Bool
  | .setLc _ => false
  | _ => true

/-- `lc_state` is written after the last transaction only. -/
theorem programOf_split (p : Params) (i : Instr) : ∃ pre post, programOf p i = pre ++ post ∧
    (∀ op ∈ pre, op.keepsLc = true) ∧ ∀ op ∈ post, ∀ addr data, op ≠ .write addr data := by
  have nib : ∀ nib rs rw bl, ∀ op ∈ sendNibble p nib rs rw bl, op.keepsLc = true := by
    intro nib rs rw bl op h
    simp only [sendNibble, uXfer, List.mem_cons, List.not_mem_nil, or_false] at h
    rcases h with rfl | rfl <;> rfl
  have char : ∀ ch, ∀ op ∈ putcProgram p ch, op.keepsLc = true := by
    intro ch op h
    simp only [putcProgram, sendByte, List.mem_append, List.mem_singleton] at h
    rcases h with (h | h) | rfl
    · exact nib _ _ _ _ op h
    · exact nib _ _ _ _ op h
    · rfl
  unfold programOf
  generalize i.asRequest = q
  cases q <;> simp only
  case btInit sel clk => exact ⟨[], [_], rfl, by simp, by simp⟩
  case btWrite addr data => exact ⟨_, [], (List.append_nil _).symm, by simp [btWriteProgram, MicroOp.keepsLc], by simp⟩
  case ebNibble n rs rw bl => exact ⟨_, [], (List.append_nil _).symm, nib _ _ _ _, by simp⟩
  case lcInit sel clk =>
    refine ⟨[.busInit sel (effectiveClk p clk)] ++ initSequence p, [.setLc .ready], rfl, ?_, by simp⟩
    intro op h
    simp only [initSequence, List.mem_append, List.mem_singleton] at h
    rcases h with rfl | ((((((((rfl | h) | rfl) | h) | rfl) | h) | rfl) | h) | rfl) <;>
      first | rfl | exact nib _ _ _ _ op h
  case lcCmd code =>
    refine ⟨_, _, rfl, ?_, ?_⟩
    · intro op h
      simp only [sendByte, List.mem_append, List.mem_singleton] at h
      rcases h with (h | h) | rfl
      · exact nib _ _ _ _ op h
      · exact nib _ _ _ _ op h
      · rfl
    · intro op h addr data
      split at h
      · rw [List.mem_singleton.1 h]; simp
      · simp at h
  case lcPutc ch => exact ⟨_, [], (List.append_nil _).symm, char _, by simp⟩
  case lcPuts text =>
    refine ⟨_, [], (List.append_nil _).symm, ?_, by simp⟩
    intro op h
    obtain ⟨c, -, hc⟩ := List.mem_flatMap.1 (show op ∈ putsProgram p text from h)
    exact char c op hc
  all_goals exact ⟨[], [], rfl, by simp, by simp⟩

theorem foldl_keepsLc (program : List MicroOp) (st : LcState) (h : ∀ op ∈ program, op.keepsLc = true) :
    program.foldl MicroOp.lcAfter st = st := by
  induction program with
  | nil => rfl
  | cons op rest ih =>
    have hk := h op List.mem_cons_self
    have : op.lcAfter st = st := by cases op <;> first | rfl | simp [MicroOp.keepsLc] at hk
    rw [List.foldl_cons, this]
    exact ih fun o ho => h o (List.mem_cons_of_mem _ ho)

/-- Before a transaction `lc_state` is as it was. -/
theorem lcState_before_write (p : Params) (i : Instr) (n : Nat) (addr : Addr7) (data : List Byte) (st : LcState)
    (h : (programOf p i)[n]? = some (.write addr data)) : ((programOf p i).take n).foldl MicroOp.lcAfter st = st := by
  obtain ⟨pre, post, hp, hpre, hpost⟩ := programOf_split p i
  refine foldl_keepsLc _ st fun op ho => ?_
  rw [hp] at h ho
  have hn : n < pre.length := by
    by_contra hge
    rw [List.getElem?_append_right (by omega)] at h
    exact hpost _ (List.mem_of_getElem? h) _ _ rfl
  rw [List.take_append_of_le_length (by omega)] at ho
  exact hpre op (List.mem_of_mem_take ho)

/-! ### Every way a request can end -/

/-- The handle with which the transactions of a request run: the one it finds, or the one it writes. -/
inductive HandleFor (i : Instr) (s : State) : Bool → Nat → Nat → Env → Prop
  /-- A bus that is initialised, with the arguments the request names, if it names any. -/
  | found (hv : s.core.btValid = true)
      (h : ∀ sel clk, busArgs s.params i = some (sel, clk) → sel = s.core.btSel ∧ clk = s.core.btClk) :
      HandleFor i s true s.core.btSel s.core.btClk s.env
  /-- A bus that the request initialises. -/
  | written (sel clk : Nat) (hv : s.core.btValid = false) (h : busArgs s.params i = some (sel, clk))
      (hi : idleAnswer s = .idle) : HandleFor i s true sel clk (askedIdle s).env
  /-- A request that does nothing needs no bus. -/
  | unused (hv : s.core.btValid = false) (h : busArgs s.params i = none) (hp : programOf s.params i = []) :
      HandleFor i s false s.core.btSel s.core.btClk s.env

/-- Every way the request `i`, presented in the state `s`, can end. -/
inductive RequestEnd (i : Instr) (s : State) : State → Prop
  | refused (h : requestOk s.params i.asRequest = false) : RequestEnd i s s.marked
  | gated (f : FaultKind) (hq : requestOk s.params i.asRequest = true) (h : gate i s.core.lcState = some f) :
      RequestEnd i s (s.faulted f i.asRequest)
  | notReady (hq : requestOk s.params i.asRequest = true) (hg : gate i s.core.lcState = none)
      (hv : s.core.btValid = false) (h : busArgs s.params i = none) (hp : programOf s.params i ≠ []) :
      RequestEnd i s (s.faulted .notReady i.asRequest)
  | handleChanged (sel clk : Nat) (hq : requestOk s.params i.asRequest = true) (hg : gate i s.core.lcState = none)
      (hv : s.core.btValid = true) (h : busArgs s.params i = some (sel, clk))
      (hne : ¬ (sel = s.core.btSel ∧ clk = s.core.btClk)) :
      RequestEnd i s (s.faulted .handleChanged i.asRequest)
  | busBusy (sel clk : Nat) (hq : requestOk s.params i.asRequest = true) (hg : gate i s.core.lcState = none)
      (hv : s.core.btValid = false) (h : busArgs s.params i = some (sel, clk)) (hi : idleAnswer s = .busy) :
      RequestEnd i s (failWith .busBusy i.asRequest (askedIdle (accept i.asRequest s)))
  | completed (valid : Bool) (sel clk : Nat) (e : Env) (hq : requestOk s.params i.asRequest = true)
      (hg : gate i s.core.lcState = none) (hh : HandleFor i s valid sel clk e)
      (hc : s.clean (startsOf (programOf s.params i)) (acksOf (programOf s.params i)) = true) :
      RequestEnd i s { s with
        core := { s.core.idleSeq with
          btValid := valid, btSel := sel, btClk := clk
          lcState := (programOf s.params i).foldl MicroOp.lcAfter s.core.lcState
          trace := s.core.trace ++ (programOf s.params i).flatMap (MicroOp.okEvents s.core.btValid) }
        env := e.after (startsOf (programOf s.params i)) (acksOf (programOf s.params i))
        results := s.results ++ [.ok] }
  | failed (valid : Bool) (sel clk : Nat) (e env : Env) (n : Nat) (addr : Addr7) (data : List Byte) (evs : List Event)
      (r : Result) (ph : BusPhase) (hq : requestOk s.params i.asRequest = true) (hg : gate i s.core.lcState = none)
      (hh : HandleFor i s valid sel clk e) (he : env.idle = e.idle)
      (hn : (programOf s.params i)[n]? = some (.write addr data)) (hf : FailedTransaction addr data evs r) :
      RequestEnd i s (failWith r i.asRequest { s with
        core := { s.core with
          btValid := valid, btSel := sel, btClk := clk
          seqBusy := true, curReq := some i.asRequest, upc := n, btPhase := ph
          trace := s.core.trace ++ ((programOf s.params i).take n).flatMap (MicroOp.okEvents s.core.btValid) ++ evs }
        env := env })

/-- Without a uBUSINIT in it, a program shows the same whether the bus is initialised or not. -/
theorem okEvents_plain (program : List MicroOp) (v w : Bool) (hp : ∀ op ∈ program, op.isPlain = true) :
    program.flatMap (MicroOp.okEvents v) = program.flatMap (MicroOp.okEvents w) := by
  refine List.flatMap_congr fun op ho => ?_
  have := hp op ho
  cases op <;> first | rfl | simp [MicroOp.isPlain] at this

/-- What a request does at an open port. -/
theorem served_end (i : Instr) (s : State) (h : s.portOpen = true) :
    RequestEnd i s (served i.asRequest (programOf s.params i) s) := by
  have hf : ∀ f, raiseFault f i.asRequest (accept i.asRequest s) = s.faulted f i.asRequest := fun f => raiseFault_of_open h f _
  unfold served
  rcases hq : requestOk s.params i.asRequest with _ | _
  · exact .refused hq
  simp only [if_true, gate_asRequest]
  rcases hg : gate i s.core.lcState with _ | f
  swap
  · simp only [hf]; exact .gated f hq hg
  simp only
  rcases hb : busArgs s.params i with _ | ⟨sel, clk⟩
  · obtain ⟨hp, hw⟩ := programOf_noInit s.params i hb
    rcases hv : s.core.btValid with _ | _
    · rcases hw with hw | ⟨addr, data, rest, hw⟩
      · have := RequestEnd.completed _ _ _ _ hq hg (.unused hv hb hw) (by rw [hw]; rfl)
        rw [hw, hv] at this
        rw [hw]
        simpa [runProgram, finish, CoreState.idleSeq, startsOf, acksOf, ← hv] using this
      · have : runProgram i.asRequest (programOf s.params i) (accept i.asRequest s) = s.faulted .notReady i.asRequest := by
          rw [← hf, hw]
          simp [runProgram, runOp, uWrite, hv]
        rw [this]
        exact .notReady hq hg hv hb (by simp [hw])
    · rcases runProgram_plain i.asRequest _ (accept i.asRequest s) hp hv with
        ⟨hc, hr⟩ | ⟨n, addr, data, evs, r, ph, env, hn, hf, he, hr⟩
      · rw [hr]
        have := RequestEnd.completed (i := i) _ _ _ _ hq hg (.found hv (by simp [hb])) hc
        rw [hv] at this
        simpa [State.ended, CoreState.idleSeq, ← hv] using this
      · rw [hr]
        have := RequestEnd.failed (i := i) _ _ _ _ env n addr data evs r ph hq hg (.found hv (by simp [hb])) he hn hf
        rw [hv] at this
        simpa [← hv, lcState_before_write _ i n addr data _ hn] using this
  · obtain ⟨rest, hprog, hp⟩ := programOf_init s.params i sel clk hb
    -- the rest of the program, from a state whose handle the bus initialisation has left valid
    have hs : startsOf (programOf s.params i) = startsOf rest := by rw [hprog]; simp [MicroOp.starts]
    have ha : acksOf (programOf s.params i) = acksOf rest := by rw [hprog]; simp [MicroOp.acks]
    have after : ∀ u : State, runOp (.busInit sel clk) (accept i.asRequest s) = (.ok, u) →
        (∀ e, u.env = e → HandleFor i s true u.core.btSel u.core.btClk e) → u.core.btValid = true →
        u.params = s.params → u.inbox = s.inbox → u.results = s.results → (∀ m n, u.clean m n = s.clean m n) →
        u.core = { (accept i.asRequest s).core with
          btValid := true, btSel := u.core.btSel, btClk := u.core.btClk
          trace := s.core.trace ++ MicroOp.okEvents s.core.btValid (.busInit sel clk) } →
        RequestEnd i s (runProgram i.asRequest (programOf s.params i) (accept i.asRequest s)) := by
      intro u hu hh hv hpar hin hres hcl hcore
      rw [hprog]
      simp only [runProgram, hu]
      rcases runProgram_plain i.asRequest rest (advance u) hp hv with
        ⟨hc, hr⟩ | ⟨n, addr, data, evs, r, ph, env, hn, hf, he, hr⟩
      · rw [hr]
        have := RequestEnd.completed _ _ _ _ hq hg (hh _ rfl) (by rw [hs, ha, ← hcl]; exact hc)
        rw [hs, ha, hprog, List.flatMap_cons, okEvents_plain rest s.core.btValid true hp] at this
        convert this using 1
        obtain ⟨core, params, env, inbox, results⟩ := u
        simp only at hpar hin hres hcore
        subst hpar hin hres
        simp only [State.ended, CoreState.idleSeq, advance_core, advance_params, advance_inbox, advance_results,
          State.mk.injEq, and_true]
        rw [hcore]
        simp [MicroOp.lcAfter]
      · rw [hr]
        have hn' : (programOf s.params i)[n + 1]? = some (.write addr data) := by rw [hprog]; simpa using hn
        have hlc := lcState_before_write _ i (n + 1) addr data s.core.lcState hn'
        have := RequestEnd.failed _ _ _ _ env (n + 1) addr data evs r ph hq hg (hh _ rfl) he hn' hf
        rw [hprog] at hlc
        rw [hprog, List.take_succ_cons, List.flatMap_cons,
          okEvents_plain (rest.take n) s.core.btValid true (fun o ho => hp o (List.mem_of_mem_take ho))] at this
        convert this using 1
        congr 1
        obtain ⟨core, params, env, inbox, results⟩ := u
        simp only at hpar hin hres hcore
        subst hpar hin hres
        simp only [advance_core, advance_params, advance_inbox, advance_results, State.mk.injEq, and_true]
        rw [hcore]
        simpa [MicroOp.lcAfter, Nat.add_comm 1 n] using hlc
    rcases uBusInit_cases sel clk (accept i.asRequest s) with
      ⟨hv, hs, hc, hu⟩ | ⟨hv, hne, hu⟩ | ⟨hv, hi, hu⟩ | ⟨hv, hi, hu⟩
    · refine after _ hu ?_ hv rfl rfl rfl (fun _ _ => rfl) ?_
      · rintro e rfl
        refine .found hv fun sel' clk' h' => ?_
        rw [hb] at h'
        obtain ⟨rfl, rfl⟩ := Prod.mk.injEq .. ▸ Option.some.inj h'
        exact ⟨hs, hc⟩
      · have hv' : s.core.btValid = true := hv
        simp [MicroOp.okEvents, hv']
    · rw [hprog]
      simp only [runProgram, runOp, hu, hf]
      exact .handleChanged sel clk hq hg hv hb hne
    · rw [hprog]
      simp only [runProgram, runOp, hu]
      exact .busBusy sel clk hq hg hv hb hi
    · refine after _ hu ?_ rfl rfl rfl rfl (fun _ _ => rfl) ?_
      · rintro e rfl
        exact .written sel clk hv hb hi
      · have hv' : s.core.btValid = false := hv
        simp [MicroOp.okEvents, hv']

/-- What `exec` does when it gives a next state. -/
theorem exec_end {i : Instr} {s t : State} (h : exec i s = .next t) : s.portOpen = true ∧ RequestEnd i s t := by
  obtain ⟨ho, rfl⟩ := (exec_next_iff i s t).1 h
  exact ⟨ho, served_end i s ho⟩

end Sys2Proof.Machine
end

