-- ==== Sys2Proof/Laws/Unread.lean ====
section
/-! SUPPORT. Laws/Unread.lean: a transaction does the same whatever the registers hold that it does not read. -/

namespace Sys2Proof.Machine

open Sys2Proof

/-- The update `f` touches nothing a transaction reads, and what a transaction writes does not touch what `f` writes. -/
structure Unread (f : State → State) : Prop where
  env : ∀ s, (f s).env = s.env
  valid : ∀ s, (f s).core.btValid = s.core.btValid
  emit : ∀ e s, emit e (f s) = f (emit e s)
  setPhase : ∀ ph s, setPhase ph (f s) = f (setPhase ph s)
  askedStart : ∀ s, askedStart (f s) = f (askedStart s)
  askedAck : ∀ s, askedAck (f s) = f (askedAck s)

variable {f : State → State}

theorem Unread.ackAnswer (h : Unread f) (s : State) : ackAnswer (f s) = ackAnswer s := ackAnswer_congr (h.env s)

theorem Unread.startAnswer (h : Unread f) (s : State) : startAnswer (f s) = startAnswer s := by
  simp [Machine.startAnswer, h.env]

theorem Unread.putByte (h : Unread f) (b : Byte) (s : State) : putByte b (f s) = f (putByte b s) := by
  simp only [Machine.putByte, h.ackAnswer, h.askedAck, h.emit]

theorem Unread.sendData (h : Unread f) (k : Nat) (data : List Byte) (s : State) :
    sendData k data (f s) = ((sendData k data s).1, f (sendData k data s).2) := by
  induction data generalizing k s with
  | nil => simp only [Machine.sendData, h.setPhase, h.emit]
  | cons b rest ih =>
    simp only [Machine.sendData, h.ackAnswer, h.setPhase, h.putByte, h.emit]
    rcases Machine.ackAnswer s with _ | _ | _
    · exact ih _ _
    · rfl
    · rfl

theorem Unread.uWrite (h : Unread f) (addr : Addr7) (data : List Byte) (s : State) :
    uWrite addr data (f s) = ((uWrite addr data s).1, f (uWrite addr data s).2) := by
  simp only [Machine.uWrite, sendAddr, h.valid, h.startAnswer, h.setPhase, h.emit, h.askedStart, h.ackAnswer, h.putByte,
    h.sendData]
  rcases s.core.btValid with _ | _
  · rfl
  rcases Machine.startAnswer s with _ | _
  · rcases Machine.ackAnswer (Machine.askedStart (Machine.emit .start (Machine.setPhase .start s))) with _ | _ | _ <;> rfl
  · rfl

/-- The request in `cur_req` is not read. -/
theorem unread_curReq (q : Option Instr) : Unread fun s => { s with core := { s.core with curReq := q } } := by
  constructor <;> intros <;> rfl

/-- `upc` is not read. -/
theorem unread_upc (n : Nat) : Unread fun s => { s with core := { s.core with upc := n } } := by
  constructor <;> intros <;> rfl

/-- `lc_state` is not read. -/
theorem unread_lcState (st : LcState) : Unread fun s => { s with core := { s.core with lcState := st } } := by
  constructor <;> intros <;> rfl

/-- The selector and the clock rate of the handle are not read. -/
theorem unread_handle (sel clk : Nat) : Unread fun s => { s with core := { s.core with btSel := sel, btClk := clk } } := by
  constructor <;> intros <;> rfl

/-- The parameters are not read. -/
theorem unread_params (g : Params → Params) : Unread fun s => { s with params := g s.params } := by
  constructor <;> intros <;> rfl

/-- The results returned so far are not read. -/
theorem unread_results (rs : List Result) : Unread fun s => { s with results := rs } := by
  constructor <;> intros <;> rfl

end Sys2Proof.Machine
end

