-- ==== Sys2Proof/Tests/Slice0.lean ====
section
/-! SUPPORT. Tests/Slice0.lean: the operand check's smoke tests, the decoder's words written out from the spec's encodings, one-step
tests with the values of spec/95_test_vectors.md and of the rules' examples, and a witness of the hypotheses of every
statement that has some. -/

namespace Sys2Proof.Tests

open Sys2Proof Sys2Proof.Machine Sys2Proof.Claim

/-! ### The parameters and states of 95_test_vectors.md section 0 -/

def params : Params where
  slaveAddr := 0x27
  bl := 1
  busIds := { first := 1, others := [2] }
  clkDefault := 100000
  tShortMin := 40
  tLongMin := 1500
  tPoweronMin := 40000
  tInit1Min := 4100
  tInit2Min := 100
  ackTimeout := 1
  errorMode := .ret

/-- After reset, with the answers given, in their order. -/
def fresh (idle : List IdleAnswer) (start : List StartAnswer) (ack : List Ack) : State :=
  { State.resetWith params with
    env := { idle := { script := idle, drawn := 0 }, start := { script := start, drawn := 0 }, ack := { script := ack, drawn := 0 } } }

/-- After `bt.init 1`. -/
def wired (start : List StartAnswer) (ack : List Ack) : State :=
  let s := fresh [] start ack
  { s with core := { s.core with btValid := true, btSel := 1, btClk := 100000 } }

/-- After `lc.init 1`, with an empty trace. -/
def ready (start : List StartAnswer) (ack : List Ack) : State := withLc .ready (wired start ack)

/-- `n` good answers of each bus query. -/
def good (n : Nat) : List StartAnswer × List Ack := (List.replicate n .ok, List.replicate (2 * n) .ack)

/-- READY on a bus that acknowledges `n` single-byte transactions. -/
def readyGood (n : Nat) : State := ready (good n).1 (good n).2

/-- The state an instruction leaves (the state itself, if it leaves none). -/
def ran (i : Instr) (s : State) : State :=
  match exec i s with
  | .next t => t
  | _ => s

/-- The state a step leaves (the state itself, if it leaves none). -/
def stepped (s : State) : State :=
  match step s with
  | .next t => t
  | _ => s

/-- The trace, the results, `lc_state` and the fault set after an instruction. -/
def shown (i : Instr) (s : State) : List Event × List Result × LcState × List (FaultKind × Instr) :=
  let t := ran i s
  (t.core.trace, t.results, t.core.lcState, t.core.faults)

/-- `T(b)` of section 0: the successful single-byte transactions. -/
def tx (bytes : List Byte) : List Event := bytes.flatMap fun b => [.start, .byte 0x4E .ack, .byte b .ack, .stop]

/-! ### WellFormed: one ill-formed term for each check (30_encoding.md R51), at the boundary of each range -/

theorem smoke_sel : Instr.wellFormed params.busIds (.btInit 3 none) = false ∧ Instr.wellFormed params.busIds (.lcInit 0 none) = false := by decide

theorem smoke_clk : Instr.wellFormed params.busIds (.btInit 1 (some 0)) = false ∧ Instr.wellFormed params.busIds (.lcInit 1 (some 0)) = false := by decide

theorem smoke_addr : Instr.wellFormed params.busIds (.btWrite 128 []) = false ∧ Instr.wellFormed params.busIds (.btWrite 127 [255]) = true := by decide

theorem smoke_data : Instr.wellFormed params.busIds (.btWrite 0 [0, 256]) = false := by decide

theorem smoke_nibble : Instr.wellFormed params.busIds (.ebNibble 16 0 0 0) = false ∧ Instr.wellFormed params.busIds (.ebNibble 15 1 1 1) = true := by decide

theorem smoke_bits : Instr.wellFormed params.busIds (.ebNibble 0 2 0 0) = false ∧ Instr.wellFormed params.busIds (.ebNibble 0 0 2 0) = false ∧
    Instr.wellFormed params.busIds (.ebNibble 0 0 0 2) = false := by decide

theorem smoke_code : Instr.wellFormed params.busIds (.lcCmd 256) = false ∧ Instr.wellFormed params.busIds (.lcPutc 256) = false ∧
    Instr.wellFormed params.busIds (.lcPuts [65, 256]) = false := by decide

theorem smoke_reserved : Instr.wellFormed params.busIds (.reserved 0x07) = false := by decide

/-! ### Decoder: words written out from R49, R54 and R68 -/

theorem test_decode_btInit : decode [0x00, 0x02, 0x00, 0x06, 0x1A, 0x80] = .instr (.btInit 2 (some 400000)) [] ∧
    decode [0x00, 0x01, 0x00, 0x00, 0x00, 0x00, 0x05] = .instr (.btInit 1 none) [0x05] := by decide

theorem test_decode_btWrite : decode [0x01, 0x27, 0x02, 0x33, 0x31] = .instr (.btWrite 0x27 [0x33, 0x31]) [] := by decide

/-- `1110 1 0 0 1`: nib = 0xE, rs = 1, rw = 0, bl = 1. -/
theorem test_decode_ebNibble : decode [0x02, 0b11101001] = .instr (.ebNibble 0xE 1 0 1) [] := by decide

theorem test_decode_lcInit : decode [0x03, 0x01, 0x00, 0x00, 0x00, 0x00] = .instr (.lcInit 1 none) [] := by decide

/-- A command's words are read as its family; the request is the LC_CMD of the code. -/
theorem test_decode_lcCmd : decode [0x04, 0x06] = .instr (.entryModeSet 1 0) [] ∧ (Instr.entryModeSet 1 0).asRequest = .lcCmd 0x06 ∧
    encode (.lcCmd 0x06) = [0x04, 0x06] := by decide

theorem test_decode_lcPutc : decode [0x05, 0x4D] = .instr (.lcPutc 0x4D) [] ∧ asmPutc 'M' = .lcPutc 0x4D := by decide

theorem test_decode_lcPuts : decode [0x06, 0x48, 0x69, 0x00, 0x04] = .instr (.lcPuts [0x48, 0x69]) [0x04] ∧
    asmPuts ['H', 'i'] = .lcPuts [0x48, 0x69] := by decide

theorem test_decode_reserved : decode [0x07] = .instr (.reserved 0x07) [] ∧ decode [0xFF, 0x01] = .instr (.reserved 0xFF) [0x01] := by decide

/-- `00000000`. -/
theorem test_decode_cmdNone : decode [0x04, 0x00] = .instr .cmdNone [] := by decide

/-- `00000001`. -/
theorem test_decode_clearDisplay : decode [0x04, 0x01] = .instr .clearDisplay [] := by decide

/-- `0000001x`. -/
theorem test_decode_returnHome : decode [0x04, 0b00000011] = .instr (.returnHome 1) [] := by decide

/-- `000001IS`. -/
theorem test_decode_entryModeSet : decode [0x04, 0b00000110] = .instr (.entryModeSet 1 0) [] := by decide

/-- `00001DCB`. -/
theorem test_decode_displayControl : decode [0x04, 0b00001110] = .instr (.displayControl 1 1 0) [] := by decide

/-- `0001SRxx`. -/
theorem test_decode_cursorShift : decode [0x04, 0b00011001] = .instr (.cursorShift 1 0 0b01) [] := by decide

/-- `0010NFxx`. -/
theorem test_decode_functionSet4 : decode [0x04, 0b00101010] = .instr (.functionSet4 1 0 0b10) [] := by decide

/-- `0011NFxx`. -/
theorem test_decode_functionSet8 : decode [0x04, 0b00110111] = .instr (.functionSet8 0 1 0b11) [] := by decide

/-- `01AAAAAA`. -/
theorem test_decode_setCgramAddr : decode [0x04, 0b01101010] = .instr (.setCgramAddr 0b101010) [] := by decide

/-- `1AAAAAAA`. -/
theorem test_decode_setDdramAddr : decode [0x04, 0b11000101] = .instr (.setDdramAddr 0b1000101) [] := by decide

/-- `0x20 + 16*dl + 8*n + 4*f` (R62). -/
theorem test_encode_lcFset : encode (.lcFset 0 1 0) = [0x04, 0x28] ∧ encode (.lcFset 1 1 0) = [0x04, 0x38] := by decide

/-- `0x08 + 4*d + 2*c + b` (R62). -/
theorem test_encode_lcDctl : encode (.lcDctl 1 1 1) = [0x04, 0x0F] ∧ encode (.lcDctl 1 0 0) = [0x04, 0x0C] := by decide

/-- R120: offset 8 of line 1 is 0x88. -/
theorem test_encode_lcLine1 : encode (.lcLine1 8) = [0x04, 0x88] ∧ encode (.lcLine1 63) = [0x04, 0xBF] := by decide

/-- R121: offset 0 of line 2 is 0xC0. -/
theorem test_encode_lcLine2 : encode (.lcLine2 0) = [0x04, 0xC0] ∧ encode (.lcLine2 63) = [0x04, 0xFF] := by decide

theorem test_decode_rejects : decode [] = .rejected .empty ∧ decode [0x04] = .rejected .truncated ∧
    decode [0x02, 0x02] = .rejected .enBitSet ∧ decode [0x01, 0x27, 0x02, 0x33] = .rejected .truncated ∧
    decode [0x06, 0x41] = .rejected .truncated := by decide

/-- The boundaries of the families (R61). -/
theorem test_family_boundaries :
    ([0x00, 0x01, 0x02, 0x03, 0x04, 0x07, 0x08, 0x0F, 0x10, 0x1F] : List Byte).map family =
      [.none, .clearDisplay, .returnHome, .returnHome, .entryModeSet, .entryModeSet, .displayControl, .displayControl, .cursorShift,
        .cursorShift] ∧
    ([0x20, 0x2F, 0x30, 0x3F, 0x40, 0x7F, 0x80, 0xFF] : List Byte).map family =
      [.functionSet4, .functionSet4, .functionSet8, .functionSet8, .setCgramAddr, .setCgramAddr, .setDdramAddr, .setDdramAddr] := by
  decide

/-! ### Bus Transport (section 2.2, 2.3) -/

/-- I1. -/
theorem test_btInit : shown (.btInit 1 none) (fresh [.idle] [] []) = ([.busInit 1 100000], [.ok], .uninit, []) := by decide

/-- I5 and I7. -/
theorem test_btInit_changed_and_busy :
    shown (.btInit 1 (some 400000)) (wired [] []) = ([], [], .uninit, [(.handleChanged, .btInit 1 (some 400000))]) ∧
    shown (.btInit 1 none) (fresh [.busy] [] []) = ([], [.busBusy], .uninit, []) := by decide

/-- W5. -/
theorem test_btWrite_nack : shown (.btWrite 0x27 [0x33, 0x31, 0x23]) (wired [.ok] [.ack, .ack, .nack]) =
    ([.start, .byte 0x4E .ack, .byte 0x33 .ack, .byte 0x31 .nack, .stop], [.nackData 1], .uninit, []) := by decide

/-- W3 and W9. -/
theorem test_btWrite_empty_and_stall :
    shown (.btWrite 0x7F []) (wired [.ok] [.ack]) = ([.start, .byte 0xFE .ack, .stop], [.ok], .uninit, []) ∧
    shown (.btWrite 0x27 [0x33, 0x31]) (wired [.ok] [.ack, .stall]) =
      ([.start, .byte 0x4E .ack, .byte 0x33 .stall, .abort], [.timeout (.data 0)], .uninit, []) := by decide

/-! ### Expander Byte Encoder -/

/-- R85. -/
theorem test_ebNibble : shown (.ebNibble 0x3 0 0 1) (wired [.ok, .ok] [.ack, .ack, .ack, .ack]) = (tx [0x33, 0x31], [.ok], .uninit, []) := by
  decide

/-- Section 1.6: the address byte of the second transaction is not acknowledged. -/
theorem test_ebNibble_second_fails : shown (.ebNibble 0x3 0 0 1) (ready [.ok, .ok] [.ack, .ack, .nack]) =
    (tx [0x33] ++ [.start, .byte 0x4E .nack, .stop], [.nackAddr], .ready, []) := by decide

/-! ### LCD Controller -/

/-- R93: INIT_TRACE. -/
theorem test_lcInit : shown (.lcInit 1 none) (fresh [.idle] (good 8).1 (good 8).2) =
    ([.busInit 1 100000, .delay .poweron] ++ tx [0x33, 0x31] ++ [.delay .init1] ++ tx [0x33, 0x31] ++ [.delay .init2] ++
      tx [0x33, 0x31] ++ [.delay .short] ++ tx [0x23, 0x21] ++ [.delay .short], [.ok], .ready, []) := by decide

/-- R95: a failure leaves FAILED. -/
theorem test_lcInit_fails : shown (.lcInit 1 none) (fresh [.idle] [.ok] [.nack]) =
    ([.busInit 1 100000, .delay .poweron, .start, .byte 0x4E .nack, .stop], [.nackAddr], .failed, []) := by decide

/-- R97. -/
theorem test_lcCmd : shown (.lcCmd 0x01) (readyGood 4) = (tx [0x03, 0x01, 0x13, 0x11] ++ [.delay .long], [.ok], .ready, []) := by decide

/-- Section 1.6: the address byte of the third transaction is not acknowledged. -/
theorem test_lcCmd_fails : shown (.lcCmd 0x01) (ready [.ok, .ok, .ok] [.ack, .ack, .ack, .ack, .nack]) =
    (tx [0x03, 0x01] ++ [.start, .byte 0x4E .nack, .stop], [.nackAddr], .ready, []) := by decide

/-- R103. -/
theorem test_lcPutc : shown (.lcPutc 0x4D) (readyGood 4) = (tx [0x4B, 0x49, 0xDB, 0xD9] ++ [.delay .short], [.ok], .ready, []) := by decide

/-- Section 1.5; and the first two characters of R104's example, then 0x00 and another. -/
theorem test_lcPuts : shown (.lcPuts []) (ready [] []) = ([], [.ok], .ready, []) ∧
    shown (.lcPuts [0x4D, 0x69, 0x00, 0x41]) (readyGood 8) =
      (tx [0x4B, 0x49, 0xDB, 0xD9] ++ [.delay .short] ++ tx [0x6B, 0x69, 0x9B, 0x99] ++ [.delay .short], [.ok], .ready, []) := by decide

/-- R101, R105: the gate. -/
theorem test_gate : shown (.lcPuts []) (wired [] []) = ([], [], .uninit, [(.notReady, .lcPuts [])]) ∧
    shown (.lcPutc 0x41) (withLc .mode8 (wired [] [])) = ([], [], .mode8, [(.mode8Misuse, .lcPutc 0x41)]) := by decide

/-- R50, R130. -/
theorem test_reserved : ran (.reserved 0x07) (readyGood 1) = (readyGood 1).marked := by decide

/-! ### The command families and pseudo-instructions (the examples of R114 to R125, section 2.4) -/

theorem test_cmdNone : shown .cmdNone (readyGood 4) = (tx [0x03, 0x01, 0x03, 0x01] ++ [.delay .short], [.ok], .ready, []) := by decide

theorem test_clearDisplay : shown .clearDisplay (readyGood 4) = (tx [0x03, 0x01, 0x13, 0x11] ++ [.delay .long], [.ok], .ready, []) := by decide

theorem test_returnHome : shown (.returnHome 1) (readyGood 4) = (tx [0x03, 0x01, 0x33, 0x31] ++ [.delay .long], [.ok], .ready, []) := by decide

/-- `lc.home`, row 4 of the scenario of 95_test_vectors.md. -/
theorem test_home : decode [0x04, 0x02] = .instr asmHome [] ∧
    shown asmHome (readyGood 4) = (tx [0x03, 0x01, 0x23, 0x21] ++ [.delay .long], [.ok], .ready, []) := by decide

theorem test_entryModeSet : shown (.entryModeSet 1 0) (readyGood 4) = (tx [0x03, 0x01, 0x63, 0x61] ++ [.delay .short], [.ok], .ready, []) := by
  decide

theorem test_displayControl : shown (.displayControl 1 0 0) (readyGood 4) =
    (tx [0x03, 0x01, 0xC3, 0xC1] ++ [.delay .short], [.ok], .ready, []) := by decide

theorem test_cursorShift : shown (.cursorShift 1 0 0) (readyGood 4) = (tx [0x13, 0x11, 0x83, 0x81] ++ [.delay .short], [.ok], .ready, []) := by
  decide

theorem test_functionSet4 : shown (.functionSet4 1 0 0) (readyGood 4) =
    (tx [0x23, 0x21, 0x83, 0x81] ++ [.delay .short], [.ok], .ready, []) := by decide

theorem test_functionSet8 : shown (.functionSet8 1 0 0) (readyGood 4) =
    (tx [0x33, 0x31, 0x83, 0x81] ++ [.delay .short], [.ok], .mode8, []) := by decide

theorem test_setCgramAddr : shown (.setCgramAddr 0) (readyGood 4) = (tx [0x43, 0x41, 0x03, 0x01] ++ [.delay .short], [.ok], .ready, []) := by
  decide

/-- R120's code 0x88 as SET_DDRAM_ADDR 8. -/
theorem test_setDdramAddr : shown (.setDdramAddr 8) (readyGood 4) = (tx [0x83, 0x81, 0x83, 0x81] ++ [.delay .short], [.ok], .ready, []) := by
  decide

theorem test_lcFset : shown (.lcFset 0 1 0) (readyGood 4) = (tx [0x23, 0x21, 0x83, 0x81] ++ [.delay .short], [.ok], .ready, []) := by decide

theorem test_lcDctl : shown (.lcDctl 1 1 1) (readyGood 4) = (tx [0x03, 0x01, 0xF3, 0xF1] ++ [.delay .short], [.ok], .ready, []) := by decide

theorem test_lcLine1 : shown (.lcLine1 8) (readyGood 4) = (tx [0x83, 0x81, 0x83, 0x81] ++ [.delay .short], [.ok], .ready, []) := by decide

theorem test_lcLine2 : shown (.lcLine2 0) (readyGood 4) = (tx [0xC3, 0xC1, 0x03, 0x01] ++ [.delay .short], [.ok], .ready, []) := by decide

/-! ### Hang, steps, the observer -/

/-- I11. -/
theorem test_hang : (ran (.btInit 1 none) (withMode .hang (fresh [.busy] [] []))).core.hung = true ∧
    shown (.btInit 1 none) (withMode .hang (fresh [.busy] [] [])) = ([], [], .uninit, []) := by decide

/-- A listing with two requests: the first is run, the second is left. -/
theorem test_step_listing : (stepped { readyGood 0 with inbox := [.listing [0x06, 0x00, 0x05, 0x41]] }).inbox = [.listing [0x05, 0x41]] ∧
    (stepped { readyGood 0 with inbox := [.listing [0x06, 0x00, 0x05, 0x41]] }).results = [.ok] := by decide

/-- R27: the LCD samples 0xA, then 0x5, of a character 0xA5. -/
theorem test_observer : (observe 0x27 (fun _ => false) (tx [0xAB, 0xA9, 0x5B, 0x59]) (.start 0)).nibbles = [(1, 0xA), (1, 0x5)] := by decide

/-! ### Witnesses: the hypotheses of the statements can be met -/

theorem inRange_btInit (clk : Option Nat) (h : clk ≠ some 0) : ¬ outOfRange params.busIds (.btInit 2 clk) := by
  simp [outOfRange, params, h]

theorem inRange_lcInit (clk : Option Nat) (h : clk ≠ some 0) : ¬ outOfRange params.busIds (.lcInit 1 clk) := by
  simp [outOfRange, params, h]

theorem inRange_btWrite : ¬ outOfRange params.busIds (.btWrite 127 [0, 255]) := by simp [outOfRange]

theorem inRange_ebNibble : ¬ outOfRange params.busIds (.ebNibble 15 1 1 1) := by simp [outOfRange]

theorem noReset_nil (s : State) (h : s.inbox = []) : noReset s := by simp [noReset, h, nextOffer]

theorem witness_ResetEventRestoresTheRegisters :
    ({ readyGood 1 with inbox := [.reset] } : State).inbox = .reset :: [] := rfl

theorem witness_UnsetHandleIsNeverRead : (fresh [.idle] [] []).core.btValid = false ∧
    exec (.btInit 1 none) (fresh [.idle] [] []) = .next (ran (.btInit 1 none) (fresh [.idle] [] [])) ∧
    exec (.btWrite 0 []) (fresh [] [] []) = .next (ran (.btWrite 0 []) (fresh [] [] [])) := ⟨rfl, rfl, rfl⟩

theorem witness_PseudoInstructionsAreCommands : familyCode (.lcLine2 63) = some 0xFF ∧ familyCode .cmdNone = some 0 ∧
    asmLine1 63 = some (.lcLine1 63) ∧ asmLine2 63 = some (.lcLine2 63) ∧ asmLine1 64 = none := by decide

theorem witness_DecodeReadsWhatEncodeWrote : (Instr.btInit 255 (some 4294967295)).listable = true ∧
    commandCode (.btInit 255 (some 4294967295)) = none ∧ (Instr.lcPuts [1, 255]).listable = true ∧
    (Instr.reserved 0x07).listable = true ∧ (Instr.ebNibble 15 1 1 1).listable = true := by decide

theorem witness_EncodeWritesWhatDecodeRead : decode [0x04, 0xFF, 0x06] = .instr (.setDdramAddr 127) [0x06] := by decide

theorem witness_PortTakesARequestOnlyWhenOpen : (readyGood 0).portOpen = true ∧
    (∃ s : State, s.core.hung = false ∧ s.core.refused = false ∧ s.core.faults = [] ∧ s.core.seqBusy = true) :=
  ⟨rfl, accept .clearDisplay (readyGood 0), rfl, rfl, rfl, rfl⟩

theorem witness_HaltedCoreHasNoStep :
    (∃ s : State, noReset s ∧ s.core.hung = true) ∧ (∃ s : State, noReset s ∧ s.core.hung = false ∧ s.core.refused = true) ∧
      ∃ s : State, noReset s ∧ s.core.hung = false ∧ s.core.refused = false ∧ s.core.faults ≠ [] :=
  ⟨⟨ran (.btInit 1 none) (withMode .hang (fresh [.busy] [] [])), noReset_nil _ rfl, rfl⟩,
    ⟨(readyGood 0).marked, noReset_nil _ rfl, rfl, rfl⟩,
    ⟨(readyGood 0).faulted .notReady .clearDisplay, noReset_nil _ rfl, rfl, rfl, by decide⟩⟩

theorem witness_StepRunsTheNextRequest : (readyGood 4).portOpen = true ∧ decode [0x04, 0x01, 0x05, 0x41] = .instr .clearDisplay [0x05, 0x41] ∧
    (readyGood 4).inbox = [] := by decide

theorem witness_FetchWordRunsTheTableInstruction : (readyGood 4).portOpen = true ∧ decodeTableWord 16 0x0104 = some .clearDisplay ∧
    decodeTableWord 8 0x00 = some (.btInit 0 none) ∧ decodeTableWord 8 0xFF = some (.setDdramAddr 127) := by decide

theorem witness_MalformedListingIsRefused : (readyGood 0).portOpen = true ∧ (0x02 : Byte).getLsbD 1 = true ∧
    decode [0x01, 0x27, 0x01] = .rejected .truncated := by decide

theorem witness_OutOfRangeRequestIsRefused : (readyGood 0).portOpen = true ∧ outOfRange params.busIds (.btWrite 128 []) ∧
    ¬ outOfRange params.busIds (.btWrite 127 [0, 255]) ∧
    exec (.btWrite 127 [0, 255]) (wired [.ok] [.ack]) = .next (ran (.btWrite 127 [0, 255]) (wired [.ok] [.ack])) :=
  ⟨rfl, by simp [outOfRange], inRange_btWrite, rfl⟩

theorem witness_ReservedHeaderIsRefused : (readyGood 0).portOpen = true ∧ 7 ≤ (0x07 : Byte).toNat ∧ 7 ≤ (0xFF : Byte).toNat := by decide

theorem witness_BusInitWritesTheHandle : (fresh [.idle] [] []).portOpen = true ∧ ¬ outOfRange params.busIds (.btInit 2 (some 1)) ∧
    (fresh [.idle] [] []).core.btValid = false ∧ idleAnswer (fresh [.idle] [] []) = .idle :=
  ⟨rfl, inRange_btInit _ (by simp), rfl, rfl⟩

theorem witness_BusInitAgainIsIdempotent : (wired [] []).portOpen = true ∧ ¬ outOfRange params.busIds (.btInit 1 none) ∧
    (wired [] []).core.btValid = true ∧ (none : Option Nat).getD params.clkDefault = (wired [] []).core.btClk :=
  ⟨rfl, by simp [outOfRange, params], rfl, rfl⟩

theorem witness_ChangedHandleFaults : (readyGood 0).portOpen = true ∧ ¬ outOfRange params.busIds (.btInit 2 none) ∧
    (readyGood 0).core.btValid = true ∧ ¬ (2 = (readyGood 0).core.btSel ∧ (none : Option Nat).getD params.clkDefault = (readyGood 0).core.btClk) ∧
    (readyGood 0).core.lcState ≠ .failed :=
  ⟨rfl, inRange_btInit _ (by simp), rfl, by decide, by decide⟩

theorem witness_BusyBusIsReported : (fresh [.busy] [] []).portOpen = true ∧ ¬ outOfRange params.busIds (.btInit 2 none) ∧
    params.errorMode = .ret ∧ (fresh [.busy] [] []).core.btValid = false ∧ idleAnswer (fresh [.busy] [] []) = .busy :=
  ⟨rfl, inRange_btInit _ (by simp), rfl, rfl, rfl⟩

theorem witness_BusWriteSendsItsBytes : (wired [.ok] [.ack, .ack, .ack]).portOpen = true ∧ ¬ outOfRange params.busIds (.btWrite 127 [0, 255]) ∧
    (wired [.ok] [.ack, .ack, .ack]).core.btValid = true ∧ (wired [.ok] [.ack, .ack, .ack]).clean 1 3 = true :=
  ⟨rfl, inRange_btWrite, rfl, by decide⟩

theorem witness_BusWriteSucceedsIffAcknowledged : ¬ outOfRange params.busIds (.btWrite 127 []) ∧ (wired [.ok] [.ack]).core.btValid = true ∧
    exec (.btWrite 127 []) (wired [.ok] [.ack]) = .next (ran (.btWrite 127 []) (wired [.ok] [.ack])) ∧
    returned (wired [.ok] [.ack]) (ran (.btWrite 127 []) (wired [.ok] [.ack])) .ok ∧
    ¬ returned (wired [.ok] [.nack]) (ran (.btWrite 127 []) (wired [.ok] [.nack])) .ok :=
  ⟨by simp [outOfRange], rfl, rfl, rfl, by unfold returned; decide⟩

/-- Both clauses: the address byte; the first and the last data byte. -/
theorem witness_BusWriteStopsAtNack : (wired [.ok] [.nack]).portOpen = true ∧ ¬ outOfRange params.busIds (.btWrite 127 [0, 255]) ∧
    (wired [.ok] [.nack]).clean 1 0 = true ∧ ackAnswer (wired [.ok] [.nack]) = .nack ∧
    (wired [.ok] [.ack, .nack]).clean 1 1 = true ∧ ((wired [.ok] [.ack, .nack]).env.ack.skip 1).head Config.freeAck = .nack ∧
    (wired [.ok] [.ack, .ack, .nack]).clean 1 2 = true ∧
    ((wired [.ok] [.ack, .ack, .nack]).env.ack.skip 2).head Config.freeAck = .nack ∧ ([0, 255] : List Nat) = [0] ++ 255 :: [] :=
  ⟨rfl, inRange_btWrite, by decide, rfl, by decide, rfl, by decide, rfl, rfl⟩

theorem witness_BusWriteAbortsAtStall : startAnswer (wired [.stall] []) = .stall ∧ (wired [.ok] [.stall]).clean 1 0 = true ∧
    ackAnswer (wired [.ok] [.stall]) = .stall ∧ (wired [.ok] [.ack, .stall]).clean 1 1 = true ∧
    ((wired [.ok] [.ack, .stall]).env.ack.skip 1).head Config.freeAck = .stall ∧ (wired [.stall] []).portOpen = true ∧
    ¬ outOfRange params.busIds (.btWrite 127 [0, 255]) :=
  ⟨rfl, by decide, rfl, by decide, rfl, rfl, inRange_btWrite⟩

theorem witness_BusWriteBeforeInitFaults : isBusWrite (.btWrite 127 [0, 255]) = true ∧ isBusWrite (.ebNibble 15 1 1 1) = true ∧
    (fresh [] [] []).portOpen = true ∧ ¬ outOfRange params.busIds (.btWrite 127 [0, 255]) ∧ ¬ outOfRange params.busIds (.ebNibble 15 1 1 1) ∧
    (fresh [] [] []).core.btValid = false :=
  ⟨rfl, rfl, rfl, inRange_btWrite, inRange_ebNibble, rfl⟩

theorem witness_NibbleIsSentInTwoTransactions : (wired (good 2).1 (good 2).2).portOpen = true ∧ ¬ outOfRange params.busIds (.ebNibble 15 1 1 1) ∧
    (wired (good 2).1 (good 2).2).core.btValid = true ∧ (wired (good 2).1 (good 2).2).clean 2 4 = true :=
  ⟨rfl, inRange_ebNibble, rfl, by decide⟩

theorem witness_FailedFirstWriteEndsTheNibble : ¬ outOfRange params.busIds (.ebNibble 15 1 1 1) ∧
    exec (.btWrite 0x27 [0xFF]) (wired [.ok] [.nack]) = .next (ran (.btWrite 0x27 [0xFF]) (wired [.ok] [.nack])) ∧
    returned (wired [.ok] [.nack]) (ran (.btWrite 0x27 [0xFF]) (wired [.ok] [.nack])) .nackAddr :=
  ⟨inRange_ebNibble, rfl, rfl⟩

theorem witness_SecondWriteEndsTheNibble :
    returned (wired [.ok, .stall] [.ack, .ack]) (ran (.btWrite 0x27 [0xFF]) (wired [.ok, .stall] [.ack, .ack])) .ok ∧
    returned (ran (.btWrite 0x27 [0xFF]) (wired [.ok, .stall] [.ack, .ack]))
      (ran (.btWrite 0x27 [0xFD]) (ran (.btWrite 0x27 [0xFF]) (wired [.ok, .stall] [.ack, .ack]))) (.timeout .start) ∧
    ¬ outOfRange params.busIds (.ebNibble 15 1 1 1) :=
  ⟨rfl, rfl, inRange_ebNibble⟩

/-- Each clause: LC_INIT in FAILED and in MODE8; a command in each of the four states. -/
theorem witness_GateOfTheLcRequests : ¬ outOfRange params.busIds (.lcInit 1 none) ∧ (withLc .failed (readyGood 0)).portOpen = true ∧
    (withLc .failed (readyGood 0)).core.lcState = .failed ∧ (withLc .mode8 (readyGood 0)).core.lcState = .mode8 ∧
    (withLc .uninit (readyGood 0)).core.lcState = .uninit ∧ (readyGood 0).core.lcState = .ready ∧ (readyGood 0).core.btValid = true ∧
    (commandCode .clearDisplay).isSome = true ∧ isChars (.lcPuts []) = true ∧
    exec .clearDisplay (readyGood 4) = .next (ran .clearDisplay (readyGood 4)) ∧
    exec (.lcInit 1 none) (withLc .mode8 (readyGood 8)) = .next (ran (.lcInit 1 none) (withLc .mode8 (readyGood 8))) :=
  ⟨inRange_lcInit _ (by simp), rfl, rfl, rfl, rfl, rfl, rfl, rfl, rfl, rfl, rfl⟩

theorem witness_LcInitRunsTheInitSequence : (fresh [.idle] (good 8).1 (good 8).2).portOpen = true ∧ ¬ outOfRange params.busIds (.lcInit 1 none) ∧
    (fresh [.idle] (good 8).1 (good 8).2).core.lcState ≠ .failed ∧ (fresh [.idle] (good 8).1 (good 8).2).clean 8 16 = true ∧
    (fresh [.idle] (good 8).1 (good 8).2).core.btValid = false ∧ idleAnswer (fresh [.idle] (good 8).1 (good 8).2) = .idle ∧
    (withLc .mode8 (readyGood 8)).clean 8 16 = true ∧ (withLc .mode8 (readyGood 8)).core.btSel = 1 ∧
    (none : Option Nat).getD params.clkDefault = (readyGood 8).core.btClk :=
  ⟨rfl, inRange_lcInit _ (by simp), by decide, by decide, rfl, rfl, by decide, rfl, rfl⟩

theorem witness_LcInitTwiceIsIdempotent : returned (readyGood 8) (ran (.lcInit 1 none) (readyGood 8)) .ok ∧
    (ran (.lcInit 1 none) (readyGood 8)).params = (readyGood 8).params ∧
    sameHandle (ran (.lcInit 1 none) (readyGood 8)) (readyGood 8) ∧ (readyGood 8).core.lcState = .ready ∧
    (readyGood 8).portOpen = true ∧ (readyGood 8).clean 8 16 = true :=
  ⟨by unfold returned; decide, by decide, by unfold sameHandle; decide, rfl, rfl, by decide⟩

/-- Both kinds of failure: a busy bus, and a transaction that fails. -/
theorem witness_FailedLcInitIsFatal : params.errorMode = .ret ∧
    returned (fresh [.busy] [] []) (ran (.lcInit 1 none) (fresh [.busy] [] [])) .busBusy ∧
    returned (fresh [.idle] [.stall] []) (ran (.lcInit 1 none) (fresh [.idle] [.stall] [])) (.timeout .start) ∧
    exec (.lcInit 1 none) (fresh [.idle] [.stall] []) = .next (ran (.lcInit 1 none) (fresh [.idle] [.stall] [])) ∧
    ¬ outOfRange params.busIds (.lcInit 1 none) ∧ ¬ outOfRange params.busIds .clearDisplay :=
  ⟨rfl, rfl, rfl, rfl, inRange_lcInit _ (by simp), by simp [outOfRange]⟩

/-- Also of `FamiliesAreSentAsTheirCodes`, `CharacterIsSentAndDelayed` and `LcdReceivesWhatWasSent`. -/
theorem witness_CommandIsSentAndDelayed : (readyGood 4).portOpen = true ∧ 255 < 256 ∧ (readyGood 4).core.lcState = .ready ∧
    (readyGood 4).core.btValid = true ∧ (readyGood 4).clean 4 8 = true ∧ familyCode (.setDdramAddr 127) = some 255 ∧
    familyCode (.functionSet8 0 0 0) = some 0x30 ∧ (Observed.start 0xFF).phase = .outside := by decide

theorem witness_StringIsSentUpToItsZero : (readyGood 8).portOpen = true ∧ (∀ c ∈ ([1, 255] : List Nat), 0 < c ∧ c < 256) ∧
    (∀ c ∈ ([0, 255] : List Nat), c < 256) ∧ (readyGood 8).clean 8 16 = true ∧ (readyGood 0).clean 0 0 = true ∧
    (readyGood 8).clean 4 8 = true := by decide

theorem witness_FailedCommandLeavesReady : (commandCode .clearDisplay).isSome = true ∧
    exec .clearDisplay (ready [.stall] []) = .next (ran .clearDisplay (ready [.stall] [])) ∧
    returned (ready [.stall] []) (ran .clearDisplay (ready [.stall] [])) (.timeout .start) := ⟨rfl, rfl, rfl⟩

/-- In both error modes; and the busy bus. -/
theorem witness_FirstFailureEndsTheRequest :
    returned (ready [.stall] []) (ran .clearDisplay (ready [.stall] [])) (.timeout .start) ∧
    (ran .clearDisplay (withMode .hang (ready [.stall] []))).core.hung = true ∧
    returned (fresh [.busy] [] []) (ran (.btInit 1 none) (fresh [.busy] [] [])) .busBusy := ⟨rfl, rfl, rfl⟩

theorem witness_FaultChangesNothingElse : exec .clearDisplay (wired [] []) = .next (ran .clearDisplay (wired [] [])) ∧
    (ran .clearDisplay (wired [] [])).core.faults ≠ [] := ⟨rfl, by decide⟩

/-- Also of `HangShowsWhatReturnShows`: the four ends. -/
theorem witness_OneOutcomePerRequest :
    exec .clearDisplay (readyGood 4) = .next (ran .clearDisplay (readyGood 4)) ∧
    exec .clearDisplay (wired [] []) = .next (ran .clearDisplay (wired [] [])) ∧
    exec (.lcCmd 256) (readyGood 4) = .next (ran (.lcCmd 256) (readyGood 4)) ∧
    exec .clearDisplay (withMode .hang (ready [.stall] [])) = .next (ran .clearDisplay (withMode .hang (ready [.stall] []))) ∧
    exec .clearDisplay (ready [.stall] []) = .next (ran .clearDisplay (ready [.stall] [])) := ⟨rfl, rfl, rfl, rfl, rfl⟩

/-- Of the frames, of `ClockRateHasNoEffect`, of `TimingParametersAreNeverRead` and of `BusRequestsIgnoreTheLcState`. -/
theorem witness_Frames : exec (.btWrite 127 [0, 255]) (wired [.ok] [.nack]) = .next (ran (.btWrite 127 [0, 255]) (wired [.ok] [.nack])) ∧
    exec (.btInit 1 none) (fresh [.idle] [] []) = .next (ran (.btInit 1 none) (fresh [.idle] [] [])) ∧
    exec (.lcPuts [1, 255]) (readyGood 8) = .next (ran (.lcPuts [1, 255]) (readyGood 8)) ∧
    exec (.lcInit 1 none) (readyGood 8) = .next (ran (.lcInit 1 none) (readyGood 8)) ∧
    isBusWrite (.btWrite 127 [0, 255]) = true ∧ isChars (.lcPuts [1, 255]) = true ∧ isInit (.btWrite 127 [0, 255]) = false ∧
    commandCode .clearDisplay = some 1 := ⟨rfl, rfl, rfl, rfl, rfl, rfl, rfl, rfl⟩

theorem witness_ValidHandleIsImmutable : noReset { readyGood 4 with inbox := [.record .clearDisplay] } ∧
    (readyGood 4).core.btValid = true ∧
    step { readyGood 4 with inbox := [.record .clearDisplay] } = .next (stepped { readyGood 4 with inbox := [.record .clearDisplay] }) :=
  ⟨by simp [noReset, nextOffer], rfl, rfl⟩

theorem witness_MarksAreStickyAndTheTraceGrows : noReset { readyGood 4 with inbox := [.record (.lcCmd 256)] } ∧
    step { readyGood 4 with inbox := [.record (.lcCmd 256)] } = .next (stepped { readyGood 4 with inbox := [.record (.lcCmd 256)] }) :=
  ⟨by simp [noReset, nextOffer], rfl⟩

theorem witness_ResetHasTheInvariant : params.inRange = true := by decide

/-- A READY core on a bus of any answers has the invariant, and has a step. -/
theorem witness_EveryStepKeepsTheInvariant (start : List StartAnswer) (ack : List Ack) :
    ({ ready start ack with inbox := [.record .clearDisplay] } : State).Inv ∧
    step { ready start ack with inbox := [.record .clearDisplay] } =
      .next (stepped { ready start ack with inbox := [.record .clearDisplay] }) :=
  ⟨{ params := rfl, busy := rfl, idle := fun _ => ⟨rfl, rfl, rfl⟩, request := by simp [ready, wired, fresh, withLc, State.resetWith, CoreState.reset]
     hang := by simp [ready, wired, fresh, withLc, State.resetWith, CoreState.reset]
     oneEnd := ⟨fun _ => ⟨rfl, rfl⟩, fun _ => rfl, Nat.zero_le 1⟩, bus := fun _ => rfl, handle := fun _ => ⟨rfl, Nat.succ_pos _⟩, framed := rfl }, rfl⟩

theorem witness_WholeRequestIsItsMicroSteps : (readyGood 4).portOpen = true ∧ ¬ outOfRange params.busIds (.lcCmd 255) ∧
    gate (.lcCmd 255) (readyGood 4).core.lcState = none := ⟨rfl, by simp [outOfRange], rfl⟩

theorem witness_MinimumDurations : params.tShortMin = 40 ∧ params.tLongMin = 1500 ∧ params.tPoweronMin = 40000 ∧ params.tInit1Min = 4100 ∧
    params.tInit2Min = 100 := by decide

end Sys2Proof.Tests
end

/-! # What a failure does (42_lcd_controller.md R95, R107; 60_exceptions.md R132) -/

namespace Sys2Proof.Machine

open Sys2Proof Sys2Proof.Claim

variable (r : Result) (q : Instr) (s : State)

/-- With HANG the core hangs; with RETURN it is idle again and the result returned. -/
theorem failWith_cases :
    (s.params.errorMode = .hang ∧ failWith r q s = { s with core := { s.core with hung := true } }) ∨
    (s.params.errorMode = .ret ∧ failWith r q s = finish r (if isLcInit q then setLc .failed s else s)) := by
  unfold failWith
  rcases s.params.errorMode with _ | _
  · exact .inr ⟨rfl, rfl⟩
  · exact .inl ⟨rfl, rfl⟩

/-- A failure writes the hung flag, or `lc_state` and the sequencer's registers. -/
theorem failWith_core : (failWith r q s).core = { s.core with hung := true } ∨
    ∃ st, (failWith r q s).core = { s.core.idleSeq with lcState := st } := by
  rcases failWith_cases r q s with ⟨-, h⟩ | ⟨-, h⟩ <;> rw [h]
  · exact .inl rfl
  · refine .inr ⟨(if isLcInit q then setLc .failed s else s).core.lcState, ?_⟩
    rcases isLcInit q <;> rfl

@[simp] theorem failWith_trace : (failWith r q s).core.trace = s.core.trace := by
  rcases failWith_core r q s with h | ⟨st, h⟩ <;> simp [h]

@[simp] theorem failWith_faults : (failWith r q s).core.faults = s.core.faults := by
  rcases failWith_core r q s with h | ⟨st, h⟩ <;> simp [h]

@[simp] theorem failWith_refused : (failWith r q s).core.refused = s.core.refused := by
  rcases failWith_core r q s with h | ⟨st, h⟩ <;> simp [h]

theorem sameHandle_failWith : sameHandle s (failWith r q s) := by
  rcases failWith_core r q s with h | ⟨st, h⟩ <;> rw [sameHandle, h] <;> exact ⟨rfl, rfl, rfl⟩

theorem failWith_idleOrHung : idleOrHung (failWith r q s) := by
  rcases failWith_core r q s with h | ⟨st, h⟩ <;> rw [idleOrHung, h]
  · exact .inl rfl
  · exact .inr ⟨rfl, rfl, rfl, rfl⟩

@[simp] theorem failWith_params : (failWith r q s).params = s.params := by
  rcases failWith_cases r q s with ⟨-, h⟩ | ⟨-, h⟩ <;> rw [h]
  rcases isLcInit q <;> rfl

@[simp] theorem failWith_inbox : (failWith r q s).inbox = s.inbox := by
  rcases failWith_cases r q s with ⟨-, h⟩ | ⟨-, h⟩ <;> rw [h]
  rcases isLcInit q <;> rfl

@[simp] theorem failWith_env : (failWith r q s).env = s.env := by
  rcases failWith_cases r q s with ⟨-, h⟩ | ⟨-, h⟩ <;> rw [h]
  rcases isLcInit q <;> rfl

theorem failWith_results : (failWith r q s).results = s.results ∨ returned s (failWith r q s) r := by
  rcases failWith_cases r q s with ⟨-, h⟩ | ⟨-, h⟩ <;> rw [h]
  · exact .inl rfl
  · right
    rcases isLcInit q <;> rfl

theorem failWith_hung : (failWith r q s).core.hung = s.core.hung ∨ s.params.errorMode = .hang := by
  rcases failWith_cases r q s with ⟨hm, -⟩ | ⟨-, h⟩
  · exact .inr hm
  · left
    rw [h]
    rcases isLcInit q <;> rfl

/-- Only a failed LC_INIT changes `lc_state` (42_lcd_controller.md R95, R108). -/
theorem failWith_lcState : (failWith r q s).core.lcState = s.core.lcState ∨
    isLcInit q = true ∧ (failWith r q s).core.lcState = .failed ∧ returned s (failWith r q s) r := by
  rcases failWith_cases r q s with ⟨-, h⟩ | ⟨-, h⟩ <;> rw [h]
  · exact .inl rfl
  · rcases isLcInit q
    · exact .inl rfl
    · exact .inr ⟨rfl, rfl, rfl⟩

end Sys2Proof.Machine

/-! # What a step can do, the port, and reset (10_state.md R18 to R22, R29, R30) -/

namespace Sys2Proof.Machine

open Sys2Proof Sys2Proof.Claim

/-! ### The port -/

theorem haltFault_none_iff (c : CoreState) :
    haltFault c = none ↔ c.hung = false ∧ c.refused = false ∧ c.faults = [] := by
  unfold haltFault
  rcases c.hung <;> rcases c.refused <;> rcases c.faults <;> simp

theorem haltFault_of_hung {c : CoreState} (h : c.hung = true) : haltFault c = some .hung := by
  simp [haltFault, h]

theorem haltFault_of_refused {c : CoreState} (hh : c.hung = false) (hr : c.refused = true) :
    haltFault c = some .quiescentRefused := by
  simp [haltFault, hh, hr]

theorem haltFault_of_faulted {c : CoreState} (hh : c.hung = false) (hr : c.refused = false) (hf : c.faults ≠ []) :
    haltFault c = some .quiescentFaulted := by
  simp [haltFault, hh, hr, hf]

theorem exec_of_haltFault (i : Instr) {s : State} {f : Fault} (h : haltFault s.core = some f) : exec i s = .fault f := by
  simp [exec_eq_serve, serve, portFault, h]

theorem exec_of_open (i : Instr) {s : State} (h : s.portOpen = true) :
    exec i s = .next (served i.asRequest (programOf s.params i) s) :=
  (exec_next_iff i s _).2 ⟨h, rfl⟩

theorem exec_of_busy (i : Instr) {s : State} (h : haltFault s.core = none) (hb : s.core.seqBusy = true) :
    exec i s = .fault .busy := by
  simp [exec_eq_serve, serve, portFault, h, hb]

/-- Settles O12: `exec` is `serve`, which answers by the halt's fault, then by a busy sequencer, and else serves the request. -/
theorem portTakesARequestOnlyWhenOpen : Obligations.PortTakesARequestOnlyWhenOpen := by
  refine ⟨fun i s => ⟨?_, ?_, ?_, ?_, ?_⟩, fun _ _ => rfl⟩
  · rw [← portOpen_iff]
    constructor
    · rintro ⟨t, h⟩
      exact ((exec_next_iff i s t).1 h).1
    · exact fun h => ⟨_, exec_of_open i h⟩
  · exact fun hh => exec_of_haltFault i (haltFault_of_hung hh)
  · exact fun hh hr => exec_of_haltFault i (haltFault_of_refused hh hr)
  · exact fun hh hr hf => exec_of_haltFault i (haltFault_of_faulted hh hr hf)
  · exact fun hh hr hf => exec_of_busy i ((haltFault_none_iff _).2 ⟨hh, hr, hf⟩)

/-! ### A step -/

theorem onPort_of_open {s : State} (h : s.portOpen = true) (k : Host.Outcome State Fault Refusal) : onPort s k = k := by
  simp [onPort, haltFault_none_of_open h, ((portOpen_iff s).1 h).1]

theorem onPort_of_haltFault {s : State} {f : Fault} (h : haltFault s.core = some f)
    (k : Host.Outcome State Fault Refusal) : onPort s k = .fault f := by
  simp [onPort, h]

/-- A port that gives a next state is open, or busy with a request that goes on. -/
theorem onPort_next {s t : State} {k : Host.Outcome State Fault Refusal} (h : onPort s k = .next t) :
    (s.portOpen = true ∧ k = .next t) ∨ (s.core.seqBusy = true ∧ resume s = .next t) := by
  unfold onPort at h
  split at h
  · simp at h
  · next hf =>
    obtain ⟨hh, hr, hfs⟩ := (haltFault_none_iff _).1 hf
    split at h
    · next hb => exact .inr ⟨hb, h⟩
    · next hb => exact .inl ⟨(portOpen_iff s).2 ⟨by simpa using hb, hh, hr, hfs⟩, h⟩

theorem resume_next {s t : State} (h : resume s = .next t) :
    ∃ q, t = runProgram q ((programOf s.params q).drop s.core.upc) s := by
  unfold resume at h
  split at h
  · next q _ => exact ⟨q, by simpa using h.symm⟩
  · simp at h

theorem step_of_reset {s : State} {rest : List Input} (h : nextOffer s.inbox = .reset rest) :
    step s = .next (coreReset (withInbox rest s)) := by
  simp [step, h]

/-- Without a reset a step that is taken is the port's. -/
theorem step_of_noReset {s : State} (hn : noReset s) : ∃ k, step s = onPort s k ∧
    (k = .next s ∨ (∃ i rest, k = exec i (withInbox rest s)) ∨ ∃ rest, k = .next (refuse (withInbox rest s))) := by
  unfold step
  rcases ho : nextOffer s.inbox with _ | rest | ⟨q, rest⟩ | rest
  · exact ⟨_, rfl, .inl rfl⟩
  · exact absurd ho (hn rest)
  · exact ⟨_, rfl, .inr (.inl ⟨q, rest, rfl⟩)⟩
  · exact ⟨_, rfl, .inr (.inr ⟨rest, rfl⟩)⟩

/-- Everything a step can do that is no reset: the core waits, serves a request or refuses a malformed one at an open port, or a
busy one goes on with its request. -/
theorem step_cases {s t : State} (hn : noReset s) (h : step s = .next t) :
    (s.portOpen = true ∧
      (t = s ∨ (∃ i rest, exec i (withInbox rest s) = .next t) ∨ ∃ rest, t = refuse (withInbox rest s))) ∨
    (s.core.seqBusy = true ∧ ∃ q, t = runProgram q ((programOf s.params q).drop s.core.upc) s) := by
  obtain ⟨k, hk, hcases⟩ := step_of_noReset hn
  rcases onPort_next (hk ▸ h) with ⟨ho, rfl⟩ | ⟨hb, hr⟩
  · refine .inl ⟨ho, ?_⟩
    rcases hcases with hw | ⟨i, rest, hx⟩ | ⟨rest, hm⟩
    · exact .inl (by simpa using hw)
    · exact .inr (.inl ⟨i, rest, hx.symm⟩)
    · exact .inr (.inr ⟨rest, by simpa using hm⟩)
  · exact .inr ⟨hb, resume_next hr⟩

/-- Settles O13: every step but a reset goes through the port, which a halted core closes. -/
theorem haltedCoreHasNoStep : Obligations.HaltedCoreHasNoStep := by
  intro s hn
  obtain ⟨k, hk, -⟩ := step_of_noReset hn
  rw [hk]
  exact ⟨fun hh => onPort_of_haltFault (haltFault_of_hung hh) k,
    fun hh hr => onPort_of_haltFault (haltFault_of_refused hh hr) k,
    fun hh hr hf => onPort_of_haltFault (haltFault_of_faulted hh hr hf) k⟩

/-- Settles O14: the next offer is the record, or what `decode` reads of the listing, and an open port takes it. -/
theorem stepRunsTheNextRequest : Obligations.StepRunsTheNextRequest := by
  intro s ho
  refine ⟨?_, ?_, ?_⟩
  · intro q rest hi
    simp [step, hi, nextOffer, onPort_of_open ho]
  · intro b bytes rest i more hi hd
    simp [step, hi, nextOffer, hd, onPort_of_open ho]
  · intro hi
    simp [step, hi, nextOffer, onPort_of_open ho]

/-! ### Reset -/

/-- A core just reset waits for a request. -/
theorem step_of_waiting {s : State} (hc : s.core = .reset) (hi : s.inbox = []) : step s = .next s := by
  have ho : s.portOpen = true := by rw [portOpen_iff, hc]; exact ⟨rfl, rfl, rfl, rfl⟩
  simp [step, hi, nextOffer, onPort_of_open ho]

/-- Settles O1: the fields are those of `CoreState.reset`, and a reset core with no input waits. -/
theorem resetLeavesTheSpecsValues : Obligations.ResetLeavesTheSpecsValues := by
  intro p
  exact ⟨rfl, rfl, rfl, rfl, rfl, rfl, rfl, rfl, rfl, rfl, step_of_waiting rfl rfl⟩

/-- Settles O2: a reset is taken before the port is asked, and writes the core's registers only. -/
theorem resetEventRestoresTheRegisters : Obligations.ResetEventRestoresTheRegisters := by
  intro s rest hi
  refine ⟨coreReset (withInbox rest s), step_of_reset (by simp [hi, nextOffer]), ?_⟩
  exact ⟨rfl, rfl, rfl, rfl, rfl, rfl, rfl, rfl, rfl, rfl, rfl, rfl, rfl, rfl, fun hr => step_of_waiting rfl hr⟩

end Sys2Proof.Machine

/-! # The invariant (10_state.md R14, R18, R21, R22; 40_bus_transport.md R73) -/

namespace Sys2Proof.Machine

open Sys2Proof Sys2Proof.Claim

/-! ### Framing -/

theorem wellFramed_append {tr evs : List Event} (h : wellFramed tr = true) (h' : wellFramed evs = true) :
    wellFramed (tr ++ evs) = true := by
  simp only [wellFramed, beq_iff_eq] at h h' ⊢
  rw [List.foldl_append, h, h']

/-- The direction bit of an address byte is 0 (20_memory.md R32). -/
@[simp] theorem addrByte_direction (addr : Addr7) : (addrByte addr).extractLsb' 0 1 = 0#1 := by
  revert addr; decide

/-- A transaction's acknowledged data bytes leave it open. -/
@[simp] theorem foldl_next_acked (data : List Byte) :
    (data.map (fun b => Event.byte b .ack)).foldl Framing.next .running = .running := by
  induction data with
  | nil => rfl
  | cons b rest ih => exact ih

theorem okEvents_wellFramed (valid : Bool) (op : MicroOp) : wellFramed (op.okEvents valid) = true := by
  cases op with
  | busInit sel clk => cases valid <;> rfl
  | write addr data => simp [wellFramed, MicroOp.okEvents, okTransaction, Framing.next, Framing.afterAck]
  | delay cls => rfl
  | setLc st => rfl

theorem program_wellFramed (valid : Bool) (program : List MicroOp) :
    wellFramed (program.flatMap (MicroOp.okEvents valid)) = true := by
  induction program with
  | nil => rfl
  | cons op rest ih => exact wellFramed_append (okEvents_wellFramed valid op) ih

/-- A failing transaction is closed too, by STOP or ABORT (40_bus_transport.md R76, R77). -/
theorem FailedTransaction.wellFramed {addr : Addr7} {data : List Byte} {evs : List Event} {r : Result}
    (h : FailedTransaction addr data evs r) : wellFramed evs = true := by
  cases h <;> simp [Machine.wellFramed, Framing.next, Framing.afterAck]

/-! ### The part of the invariant that holds inside a request too -/

/-- The parts of the invariant that do not speak of the sequencer or of the end of a request. -/
structure State.Sound (s : State) : Prop where
  params : s.params.inRange = true
  bus : s.core.lcState = .ready ∨ s.core.lcState = .mode8 → s.core.btValid = true
  handle : s.core.btValid = true → s.params.busIds.has s.core.btSel = true ∧ 0 < s.core.btClk
  framed : wellFramed s.core.trace = true

/-- Neither hung, nor refused, nor faulted. -/
def State.Unmarked (s : State) : Prop := s.core.hung = false ∧ s.core.refused = false ∧ s.core.faults = []

variable {s : State}

theorem State.Inv.sound (h : s.Inv) : s.Sound := ⟨h.params, h.bus, h.handle, h.framed⟩

theorem State.unmarked_of_open (h : s.portOpen = true) : s.Unmarked := ((portOpen_iff s).1 h).2

theorem State.Inv.withInbox (h : s.Inv) (inputs : List Input) : (withInbox inputs s).Inv :=
  ⟨h.params, h.busy, h.idle, h.request, h.hang, h.oneEnd, h.bus, h.handle, h.framed⟩

/-- A core just reset has the invariant. -/
theorem inv_of_reset (hc : s.core = .reset) (hp : s.params.inRange = true) : s.Inv := by
  constructor <;> simp [hc, hp, CoreState.reset, wellFramed]

theorem State.Inv.marked (h : s.Inv) (ho : s.portOpen = true) : s.marked.Inv := by
  obtain ⟨hh, -, hf⟩ := State.unmarked_of_open ho
  exact ⟨h.params, h.busy, h.idle, h.request, h.hang, ⟨by simp [State.marked, hh], fun _ => hf, h.oneEnd.2.2⟩,
    h.bus, h.handle, h.framed⟩

theorem State.Inv.faulted (h : s.Inv) (ho : s.portOpen = true) (f : FaultKind) (q : Instr) : (s.faulted f q).Inv := by
  obtain ⟨hh, hr, hf⟩ := State.unmarked_of_open ho
  constructor <;> simp [State.faulted, hh, hr, hf, h.params, h.framed]
  case bus => exact h.bus
  case handle => exact h.handle

/-- A request that ends with a result gives the invariant back. -/
theorem State.Sound.finish (h : s.Sound) (hu : s.Unmarked) (r : Result) : (finish r s).Inv := by
  obtain ⟨hh, hr, hf⟩ := hu
  constructor <;> simp [hh, hr, hf, h.params, h.framed]
  case bus => exact h.bus
  case handle => exact h.handle

theorem State.Sound.setLc_failed (h : s.Sound) : (setLc .failed s).Sound := ⟨h.params, by simp, h.handle, h.framed⟩

/-- A request that hangs leaves the core busy with it. -/
theorem State.Sound.hang (h : s.Sound) (hr : s.core.refused = false) (hf : s.core.faults = [])
    (hb : s.core.seqBusy = true) (hq : s.core.curReq ≠ none) (hm : s.params.errorMode = .hang) :
    ({ s with core := { s.core with hung := true } } : State).Inv := by
  constructor <;> simp [hr, hf, hb, hq, hm, h.params, h.framed]
  case bus => exact h.bus
  case handle => exact h.handle

/-- A request that fails gives the invariant back, in either ERROR_MODE. -/
theorem State.Sound.failWith (h : s.Sound) (hu : s.Unmarked) (hb : s.core.seqBusy = true) (hq : s.core.curReq ≠ none)
    (r : Result) (q : Instr) : (failWith r q s).Inv := by
  rcases failWith_cases r q s with ⟨hm, hw⟩ | ⟨-, hw⟩ <;> rw [hw]
  · exact h.hang hu.2.1 hu.2.2 hb hq hm
  · split
    · exact h.setLc_failed.finish hu r
    · exact h.finish hu r

/-! ### The handle a request runs with -/

/-- The operands of a request the port takes are in range, and so is the default clock rate. -/
theorem busArgs_inRange {p : Params} {i : Instr} {sel clk : Nat} (hp : p.inRange = true)
    (hq : requestOk p i.asRequest = true) (h : busArgs p i = some (sel, clk)) : p.busIds.has sel = true ∧ 0 < clk := by
  have eff : ∀ c, clkInRange c = true → 0 < effectiveClk p c := by
    rintro (_ | c) hc
    · simpa [effectiveClk, Params.inRange] using hp
    · simpa [effectiveClk, clkInRange] using hc
  unfold busArgs at h
  unfold requestOk at hq
  generalize i.asRequest = q at h hq
  cases q <;> simp only [reduceCtorEq, Option.some.injEq, Prod.mk.injEq] at h
  all_goals
    obtain ⟨rfl, rfl⟩ := h
    simp only [Instr.wellFormed, Bool.and_eq_true] at hq
    exact ⟨hq.1, eff _ hq.2⟩

variable {i : Instr} {valid : Bool} {sel clk : Nat} {e : Env}

/-- Only a request that does nothing runs without a valid handle. -/
theorem HandleFor.valid_or_unused (h : HandleFor i s valid sel clk e) :
    valid = true ∨ (s.core.btValid = false ∧ valid = false ∧ programOf s.params i = []) := by
  cases h with
  | found | written => exact .inl rfl
  | unused hv _ hp => exact .inr ⟨hv, rfl, hp⟩

theorem HandleFor.inRange (h : HandleFor i s valid sel clk e) (hs : s.Sound)
    (hq : requestOk s.params i.asRequest = true) (hv : valid = true) : s.params.busIds.has sel = true ∧ 0 < clk := by
  cases h with
  | found hv' => exact hs.handle hv'
  | written _ _ _ hb => exact busArgs_inRange hs.params hq hb
  | unused => simp at hv

/-- Every end of a request gives the invariant back. -/
theorem RequestEnd.keeps_inv {t : State} (h : RequestEnd i s t) (hs : s.Inv) (ho : s.portOpen = true) : t.Inv := by
  have hu := State.unmarked_of_open ho
  cases h with
  | refused => exact hs.marked ho
  | gated | notReady | handleChanged => exact hs.faulted ho _ _
  | busBusy =>
    apply State.Sound.failWith
    case h => exact ⟨hs.params, hs.bus, hs.handle, hs.framed⟩
    case hu => exact hu
    case hb => rfl
    case hq => simp
  | completed valid sel clk e hq hg hh =>
    refine State.Sound.finish (s := { s with
      core := { s.core with
        btValid := valid, btSel := sel, btClk := clk
        lcState := (programOf s.params i).foldl MicroOp.lcAfter s.core.lcState
        trace := s.core.trace ++ (programOf s.params i).flatMap (MicroOp.okEvents s.core.btValid) }
      env := e.after (startsOf (programOf s.params i)) (acksOf (programOf s.params i)) })
      ⟨hs.params, ?_, hh.inRange hs.sound hq, wellFramed_append hs.framed (program_wellFramed _ _)⟩ hu .ok
    intro hl
    rcases hh.valid_or_unused with hv | ⟨hv, rfl, hp⟩
    · exact hv
    · simp only [hp, List.foldl_nil] at hl
      exact absurd (hs.bus hl) (by simp [hv])
  | failed valid sel clk e env n addr data evs r ph hq hg hh he hn hf =>
    have hv : valid = true := by
      rcases hh.valid_or_unused with hv | ⟨-, -, hp⟩
      · exact hv
      · simp [hp] at hn
    apply State.Sound.failWith
    case h =>
      exact ⟨hs.params, fun _ => hv, hh.inRange hs.sound hq,
        wellFramed_append (wellFramed_append hs.framed (program_wellFramed _ _)) hf.wellFramed⟩
    case hu => exact hu
    case hb => rfl
    case hq => simp

/-- Settles O49: every register of a reset core has the value the invariant asks for. -/
theorem resetHasTheInvariant : Obligations.ResetHasTheInvariant := fun _ hp => inv_of_reset rfl hp

/-- Settles O50: a reset gives the invariant outright; every other step is the port's, which the invariant leaves open or
halted, and there every end of a request keeps it. -/
theorem everyStepKeepsTheInvariant : Obligations.EveryStepKeepsTheInvariant := by
  intro s t hs h
  by_cases hn : noReset s
  · rcases step_cases hn h with ⟨ho, rfl | ⟨i, rest, hx⟩ | ⟨rest, rfl⟩⟩ | ⟨hb, -⟩
    · exact hs
    · obtain ⟨ho', hend⟩ := exec_end hx
      exact hend.keeps_inv (hs.withInbox rest) ho'
    · exact (hs.withInbox rest).marked ho
    · obtain ⟨k, hk, -⟩ := step_of_noReset hn
      rw [hk, onPort_of_haltFault (haltFault_of_hung (hs.busy ▸ hb))] at h
      simp at h
  · obtain ⟨rest, hr⟩ : ∃ rest, nextOffer s.inbox = .reset rest := by simpa [noReset] using hn
    rw [step_of_reset hr] at h
    obtain rfl : coreReset (withInbox rest s) = t := by simpa using h
    exact inv_of_reset rfl hs.params

end Sys2Proof.Machine

/-! # What every step keeps, and the sequencer one micro-operation at a time (10_state.md R15, R18 to R23) -/

namespace Sys2Proof.Machine

open Sys2Proof Sys2Proof.Claim

/-! ### What every step but a reset keeps -/

/-- The trace, the results and the fault set grow, the marks stay set, and a valid handle and the parameters stay as they are. -/
structure Grows (s t : State) : Prop where
  trace : s.core.trace <+: t.core.trace
  results : s.results <+: t.results
  faults : s.core.faults ⊆ t.core.faults
  refused : s.core.refused = true → t.core.refused = true
  hung : s.core.hung = true → t.core.hung = true
  params : t.params = s.params
  handle : s.core.btValid = true → sameHandle s t

variable {s t u : State}

theorem Grows.refl (s : State) : Grows s s :=
  ⟨⟨[], List.append_nil _⟩, ⟨[], List.append_nil _⟩, List.Subset.refl _, id, id, rfl, fun _ => ⟨rfl, rfl, rfl⟩⟩

theorem Grows.trans (h : Grows s t) (h' : Grows t u) : Grows s u where
  trace := h.trace.trans h'.trace
  results := h.results.trans h'.results
  faults := fun _ hx => h'.faults (h.faults hx)
  refused := h'.refused ∘ h.refused
  hung := h'.hung ∘ h.hung
  params := h'.params.trans h.params
  handle hv := by
    obtain ⟨h1, h2, h3⟩ := h.handle hv
    obtain ⟨h1', h2', h3'⟩ := h'.handle (h1.trans hv)
    exact ⟨h1'.trans h1, h2'.trans h2, h3'.trans h3⟩

/-- An update of registers that no mark and no record is in. -/
theorem grows_of_same (htrace : t.core.trace = s.core.trace) (hresults : t.results = s.results)
    (hfaults : t.core.faults = s.core.faults) (hrefused : t.core.refused = s.core.refused)
    (hhung : t.core.hung = s.core.hung) (hparams : t.params = s.params) (hhandle : sameHandle s t) : Grows s t :=
  ⟨by rw [htrace], by rw [hresults], by rw [hfaults]; exact List.Subset.refl _, fun h => hrefused.trans h,
    fun h => hhung.trans h, hparams, fun _ => hhandle⟩

theorem grows_withInbox (inputs : List Input) (s : State) : Grows s (withInbox inputs s) :=
  grows_of_same rfl rfl rfl rfl rfl rfl ⟨rfl, rfl, rfl⟩

theorem grows_accept (q : Instr) (s : State) : Grows s (accept q s) :=
  grows_of_same rfl rfl rfl rfl rfl rfl ⟨rfl, rfl, rfl⟩

theorem grows_advance (s : State) : Grows s (advance s) :=
  grows_of_same rfl rfl rfl rfl rfl rfl ⟨rfl, rfl, rfl⟩

theorem grows_setLc (st : LcState) (s : State) : Grows s (setLc st s) :=
  grows_of_same rfl rfl rfl rfl rfl rfl ⟨rfl, rfl, rfl⟩

theorem grows_askedIdle (s : State) : Grows s (askedIdle s) :=
  grows_of_same rfl rfl rfl rfl rfl rfl ⟨rfl, rfl, rfl⟩

theorem grows_emit (e : Event) (s : State) : Grows s (emit e s) :=
  { Grows.refl s with trace := ⟨_, rfl⟩, handle := fun _ => ⟨rfl, rfl, rfl⟩ }

theorem grows_refuse (s : State) : Grows s (refuse s) :=
  { Grows.refl s with refused := fun _ => rfl, handle := fun _ => ⟨rfl, rfl, rfl⟩ }

theorem grows_finish (r : Result) (s : State) : Grows s (finish r s) :=
  { Grows.refl s with results := ⟨_, rfl⟩, handle := fun _ => ⟨rfl, rfl, rfl⟩ }

theorem grows_raiseFault (f : FaultKind) (q : Instr) (s : State) : Grows s (raiseFault f q s) :=
  { Grows.refl s with
    faults := by
      rw [raiseFault_core]
      split
      · exact List.Subset.refl _
      · exact List.subset_append_left _ _
    handle := fun _ => ⟨rfl, rfl, rfl⟩ }

theorem grows_failWith (r : Result) (q : Instr) (s : State) : Grows s (failWith r q s) := by
  rcases failWith_cases r q s with ⟨-, h⟩ | ⟨-, h⟩ <;> rw [h]
  · exact { Grows.refl s with hung := fun _ => rfl, handle := fun _ => ⟨rfl, rfl, rfl⟩ }
  · split
    · exact (grows_setLc .failed s).trans (grows_finish r _)
    · exact grows_finish r s

/-- A transaction writes the trace and `bt_phase` only. -/
theorem Ran.grows {evs : List Event} (h : Ran s t evs) : Grows s t where
  trace := by rw [h.core]; exact ⟨_, rfl⟩
  results := by rw [h.results]
  faults := by rw [h.core]; exact List.Subset.refl _
  refused hr := by rw [h.core]; exact hr
  hung hh := by rw [h.core]; exact hh
  params := h.params
  handle _ := by rw [sameHandle, h.core]; exact ⟨rfl, rfl, rfl⟩

theorem grows_uBusInit (sel clk : Nat) (s : State) : Grows s (uBusInit sel clk s).2 := by
  rcases uBusInit_cases sel clk s with ⟨-, -, -, h⟩ | ⟨-, -, h⟩ | ⟨-, -, h⟩ | ⟨hv, -, h⟩ <;> rw [h]
  · exact Grows.refl s
  · exact Grows.refl s
  · exact grows_askedIdle s
  · refine Grows.trans ?_ (grows_emit _ _)
    exact { Grows.refl s with handle := fun hv' => by simp [hv] at hv' }

theorem grows_uWrite (addr : Addr7) (data : List Byte) (s : State) : Grows s (uWrite addr data s).2 := by
  rcases uWrite_cases addr data s with ⟨-, h⟩ | ⟨-, -, t, h, hr, -, -⟩ | ⟨-, t, _, _, h, hr, -⟩ <;> rw [h]
  · exact Grows.refl s
  · exact hr.grows
  · exact hr.grows

theorem grows_runOp (op : MicroOp) (s : State) : Grows s (runOp op s).2 := by
  cases op with
  | busInit sel clk => exact grows_uBusInit sel clk s
  | write addr data => exact grows_uWrite addr data s
  | delay cls => exact grows_emit _ s
  | setLc st => exact grows_setLc st s

theorem grows_runProgram (q : Instr) (program : List MicroOp) (s : State) : Grows s (runProgram q program s) := by
  have op_grows : ∀ {op s r t}, runOp op s = (r, t) → Grows s t := by
    intro op s r t h
    simpa [h] using grows_runOp op s
  refine runProgram_induction (P := Grows s) q program s ?ok ?done ?fail ?raise (Grows.refl s)
  case ok => exact fun _ _ u v hu h => (hu.trans (op_grows h)).trans (grows_advance v)
  case done => exact fun u hu => hu.trans (grows_finish _ u)
  case fail => exact fun _ _ u r v hu h => (hu.trans (op_grows h)).trans (grows_failWith r q v)
  case raise => exact fun _ _ u f v hu h => (hu.trans (op_grows h)).trans (grows_raiseFault f q v)

theorem grows_served (q : Instr) (program : List MicroOp) (s : State) : Grows s (served q program s) := by
  unfold served
  split
  · split
    · exact (grows_accept q s).trans (grows_raiseFault _ q _)
    · exact (grows_accept q s).trans (grows_runProgram q program _)
  · exact grows_refuse s

theorem grows_step (hn : noReset s) (h : step s = .next t) : Grows s t := by
  rcases step_cases hn h with ⟨-, rfl | ⟨i, rest, hx⟩ | ⟨rest, rfl⟩⟩ | ⟨-, q, rfl⟩
  · exact Grows.refl t
  · obtain ⟨-, rfl⟩ := (exec_next_iff i _ t).1 hx
    exact (grows_withInbox rest s).trans (grows_served _ _ _)
  · exact (grows_withInbox rest s).trans (grows_refuse _)
  · exact grows_runProgram q _ s

/-- Settles O47: every step but a reset is one that `Grows`. -/
theorem validHandleIsImmutable : Obligations.ValidHandleIsImmutable :=
  fun _ _ hn hv h => (grows_step hn h).handle hv

/-- Settles O48: every step but a reset is one that `Grows`. -/
theorem marksAreStickyAndTheTraceGrows : Obligations.MarksAreStickyAndTheTraceGrows := by
  intro s t hn h
  obtain ⟨⟨evs, htrace⟩, ⟨rs, hresults⟩, hfaults, hrefused, hhung, hparams, -⟩ := grows_step hn h
  exact ⟨⟨evs, htrace.symm⟩, ⟨rs, hresults.symm⟩, hfaults, hrefused, hhung, hparams⟩

/-! ### One micro-operation at a time -/

/-- The sequencer is running the request `q`. -/
structure Sequencing (q : Instr) (s : State) : Prop where
  busy : s.core.seqBusy = true
  hung : s.core.hung = false
  request : s.core.curReq = some q

/-- The sequencer is idle, or the core is hung. -/
def Stopped (s : State) : Prop := s.core.seqBusy = false ∨ s.core.hung = true

theorem microStep_of_stopped (h : Stopped s) : microStep s = s := by
  rcases h with h | h <;> simp [microStep, h]

theorem microSteps_of_stopped (n : Nat) (h : Stopped s) : microSteps n s = s := by
  induction n with
  | zero => rfl
  | succ n ih => rw [microSteps, microStep_of_stopped h, ih]

theorem stopped_failWith (r : Result) (q : Instr) (s : State) : Stopped (failWith r q s) :=
  (failWith_idleOrHung r q s).elim .inr fun ⟨hb, _⟩ => .inl hb

/-- No micro-operation writes the sequencer's registers or the hung flag. -/
theorem runOp_sequencer (op : MicroOp) (s : State) :
    (runOp op s).2.core.seqBusy = s.core.seqBusy ∧ (runOp op s).2.core.hung = s.core.hung ∧
      (runOp op s).2.core.curReq = s.core.curReq ∧ (runOp op s).2.core.upc = s.core.upc := by
  cases op with
  | busInit sel clk =>
    simp only [runOp]
    rcases uBusInit_cases sel clk s with ⟨-, -, -, h⟩ | ⟨-, -, h⟩ | ⟨-, -, h⟩ | ⟨-, -, h⟩ <;> simp [h]
  | write addr data =>
    simp only [runOp]
    rcases uWrite_cases addr data s with ⟨-, h⟩ | ⟨-, -, t, h, hr, -, -⟩ | ⟨-, t, _, _, h, hr, -⟩ <;> rw [h]
    · exact ⟨rfl, rfl, rfl, rfl⟩
    · rw [hr.core]; exact ⟨rfl, rfl, rfl, rfl⟩
    · rw [hr.core]; exact ⟨rfl, rfl, rfl, rfl⟩
  | delay cls => exact ⟨rfl, rfl, rfl, rfl⟩
  | setLc st => exact ⟨rfl, rfl, rfl, rfl⟩

theorem microStep_of_end {q : Instr} (h : Sequencing q s) (hd : (programOf s.params q).drop s.core.upc = []) :
    microStep s = finish .ok s := by
  have hn : (programOf s.params q)[s.core.upc]? = none := by simpa using hd
  simp [microStep, h.busy, h.hung, h.request, hn]

theorem microStep_of_op {q : Instr} {op : MicroOp} {rest : List MicroOp} (h : Sequencing q s)
    (hd : (programOf s.params q).drop s.core.upc = op :: rest) : microStep s = settle q (runOp op s) := by
  have hs : (programOf s.params q)[s.core.upc]? = some op := by
    rw [← List.head?_drop, hd, List.head?_cons]
  simp [microStep, h.busy, h.hung, h.request, hs]

/-- The rest of a micro-program, run to the request's end, is its micro-operations one at a time and one step more. -/
theorem microSteps_eq_runProgram (q : Instr) (rest : List MicroOp) (s : State) (h : Sequencing q s)
    (hd : (programOf s.params q).drop s.core.upc = rest) : microSteps (rest.length + 1) s = runProgram q rest s := by
  induction rest generalizing s with
  | nil => exact microStep_of_end h hd
  | cons op rest ih =>
    obtain ⟨hbusy, hhung, hreq, hupc⟩ := runOp_sequencer op s
    have hparams := (grows_runOp op s).params
    rw [List.length_cons, microSteps, microStep_of_op h hd, runProgram]
    rcases hr : runOp op s with ⟨_ | r | f, t⟩ <;> simp only [hr] at hbusy hhung hreq hupc hparams
    · refine ih (advance t) ⟨hbusy.trans h.busy, hhung.trans h.hung, hreq.trans h.request⟩ ?_
      rw [advance_params, advance_core, hparams, hupc, ← List.tail_drop, hd, List.tail_cons]
    · exact microSteps_of_stopped _ (stopped_failWith r q t)
    · exact microSteps_of_stopped _ (.inl rfl)

/-- The port's check of a request (30_encoding.md R50, R51). -/
theorem requestOk_of_not_outOfRange {p : Params} {i : Instr} (h : ¬ outOfRange p.busIds i) :
    requestOk p i.asRequest = true := by
  have clk : ∀ c : Option Nat, c ≠ some 0 → clkInRange c = true := by
    rintro (_ | c) hc
    · rfl
    · simpa [clkInRange, Nat.pos_iff_ne_zero] using hc
  unfold requestOk
  cases i <;> simp only [outOfRange, not_or, not_not, not_exists, not_and, not_lt] at h <;>
    simp only [Instr.asRequest, Instr.wellFormed, Bool.and_eq_true, decide_eq_true_eq, List.all_eq_true]
  case btInit => exact ⟨by simpa [BusIds.has, or_iff_not_imp_left] using h.1, clk _ h.2⟩
  case lcInit => exact ⟨by simpa [BusIds.has, or_iff_not_imp_left] using h.1, clk _ h.2⟩
  case btWrite => exact ⟨by omega, fun b hb => by have := h.2 b hb; omega⟩
  case ebNibble => omega
  case lcCmd => omega
  case lcPutc => omega
  case lcPuts => exact fun c hc => by have := h c hc; omega
  case reserved => simp at h
  case cmdNone => decide
  all_goals exact BitVec.isLt _

/-- What an open port does with a request in range that its gate lets pass. -/
theorem exec_of_accepted {i : Instr} (ho : s.portOpen = true) (hq : requestOk s.params i.asRequest = true)
    (hg : gate i s.core.lcState = none) :
    exec i s = .next (runProgram i.asRequest (programOf s.params i) (accept i.asRequest s)) := by
  simp [exec_of_open i ho, served, hq, hg]

/-- Settles O51: the accepted request's micro-program from `upc` 0, by induction on what is left of it. -/
theorem wholeRequestIsItsMicroSteps : Obligations.WholeRequestIsItsMicroSteps := by
  intro i s ho hr hg
  have hs : Sequencing i.asRequest (accept i.asRequest s) := ⟨rfl, ((portOpen_iff s).1 ho).2.1, rfl⟩
  rw [exec_of_accepted ho (requestOk_of_not_outOfRange hr) hg,
    microSteps_eq_runProgram i.asRequest (programOf s.params i) _ hs (by simp)]

/-! ### A handle that is not valid is not read -/

/-- An update that every micro-operation of a program and every end of its request pass over is passed over by the whole run. -/
theorem runProgram_commute {f : State → State} (q : Instr) (program : List MicroOp)
    (op : ∀ op ∈ program, ∀ s, runOp op (f s) = ((runOp op s).1, f (runOp op s).2))
    (advance_f : ∀ s, advance (f s) = f (advance s)) (finish_f : ∀ r s, finish r (f s) = f (finish r s))
    (failWith_f : ∀ r s, failWith r q (f s) = f (failWith r q s))
    (raiseFault_f : ∀ fk s, raiseFault fk q (f s) = f (raiseFault fk q s)) (s : State) :
    runProgram q program (f s) = f (runProgram q program s) := by
  induction program generalizing s with
  | nil => exact finish_f _ _
  | cons o rest ih =>
    simp only [runProgram, op o List.mem_cons_self s]
    rcases runOp o s with ⟨_ | r | fk, t⟩ <;> simp only
    · rw [advance_f, ih fun o ho => op o (List.mem_cons_of_mem _ ho)]
    · exact failWith_f r t
    · exact raiseFault_f fk t

/-- The state with another selector and clock rate, as long as the handle is not valid. -/
def withUnsetHandle (sel clk : Nat) (s : State) : State := if s.core.btValid then s else withHandle sel clk s

section

variable (sel clk : Nat)

theorem withUnsetHandle_of_valid (h : s.core.btValid = true) : withUnsetHandle sel clk s = s := by
  simp [withUnsetHandle, h]

theorem withUnsetHandle_of_unset (h : s.core.btValid = false) : withUnsetHandle sel clk s = withHandle sel clk s := by
  simp [withUnsetHandle, h]

/-- It commutes with every update that leaves the handle alone. -/
theorem withUnsetHandle_comm {g : State → State} (hv : ∀ s, (g s).core.btValid = s.core.btValid)
    (hg : ∀ s, g (withHandle sel clk s) = withHandle sel clk (g s)) (s : State) :
    g (withUnsetHandle sel clk s) = withUnsetHandle sel clk (g s) := by
  simp only [withUnsetHandle, hv]
  split
  · rfl
  · exact hg s

theorem failWith_withHandle (r : Result) (q : Instr) (s : State) :
    failWith r q (withHandle sel clk s) = withHandle sel clk (failWith r q s) := by
  unfold failWith
  rcases hm : s.params.errorMode with _ | _ <;> simp only [withHandle, hm]
  rcases isLcInit q <;> rfl

theorem unread_withUnsetHandle : Unread (withUnsetHandle sel clk) where
  env s := by unfold withUnsetHandle; split <;> rfl
  valid s := by unfold withUnsetHandle; split <;> rfl
  emit e := withUnsetHandle_comm sel clk (fun _ => rfl) fun _ => rfl
  setPhase ph := withUnsetHandle_comm sel clk (fun _ => rfl) fun _ => rfl
  askedStart := withUnsetHandle_comm sel clk (fun _ => rfl) fun _ => rfl
  askedAck := withUnsetHandle_comm sel clk (fun _ => rfl) fun _ => rfl

theorem uBusInit_idle (hv : s.core.btValid = false) (hi : idleAnswer s = .idle) :
    uBusInit sel clk s = (.ok, emit (.busInit sel clk) (setHandle sel clk (askedIdle s))) := by
  simp [uBusInit, hv, hi]

theorem uBusInit_busy (hv : s.core.btValid = false) (hi : idleAnswer s = .busy) :
    uBusInit sel clk s = (.fail .busBusy, askedIdle s) := by
  simp [uBusInit, hv, hi]

/-- uBUSINIT compares a valid handle and overwrites one that is not. -/
theorem uBusInit_withUnsetHandle (sel' clk' : Nat) (s : State) :
    uBusInit sel' clk' (withUnsetHandle sel clk s) =
      ((uBusInit sel' clk' s).1, withUnsetHandle sel clk (uBusInit sel' clk' s).2) := by
  rcases hv : s.core.btValid with _ | _
  · rw [withUnsetHandle_of_unset sel clk hv]
    rcases hi : idleAnswer s with _ | _
    · rw [uBusInit_idle sel' clk' (s := withHandle sel clk s) hv hi, uBusInit_idle sel' clk' hv hi,
        withUnsetHandle_of_valid sel clk rfl]
      rfl
    · rw [uBusInit_busy sel' clk' (s := withHandle sel clk s) hv hi, uBusInit_busy sel' clk' hv hi,
        withUnsetHandle_of_unset sel clk (s := askedIdle s) hv]
      rfl
  · rw [withUnsetHandle_of_valid sel clk hv]
    rcases uBusInit_cases sel' clk' s with ⟨-, -, -, h⟩ | ⟨-, -, h⟩ | ⟨hf, -⟩ | ⟨hf, -⟩
    · rw [h, withUnsetHandle_of_valid sel clk hv]
    · rw [h, withUnsetHandle_of_valid sel clk hv]
    · simp [hv] at hf
    · simp [hv] at hf

theorem runOp_withUnsetHandle (op : MicroOp) (s : State) :
    runOp op (withUnsetHandle sel clk s) = ((runOp op s).1, withUnsetHandle sel clk (runOp op s).2) := by
  cases op with
  | busInit sel' clk' => exact uBusInit_withUnsetHandle sel clk sel' clk' s
  | write addr data => exact (unread_withUnsetHandle sel clk).uWrite addr data s
  | delay cls => exact congrArg (Prod.mk _) ((unread_withUnsetHandle sel clk).emit _ s)
  | setLc st => exact congrArg (Prod.mk _) (withUnsetHandle_comm sel clk (g := setLc st) (fun _ => rfl) (fun _ => rfl) s)

theorem runProgram_withUnsetHandle (q : Instr) (program : List MicroOp) (s : State) :
    runProgram q program (withUnsetHandle sel clk s) = withUnsetHandle sel clk (runProgram q program s) :=
  runProgram_commute q program (fun op _ => runOp_withUnsetHandle sel clk op)
    (withUnsetHandle_comm sel clk (fun _ => rfl) fun _ => rfl)
    (fun _ => withUnsetHandle_comm sel clk (fun _ => rfl) fun _ => rfl)
    (fun r => withUnsetHandle_comm sel clk (fun s => (sameHandle_failWith r q s).1) (failWith_withHandle sel clk r q))
    (fun _ => withUnsetHandle_comm sel clk (fun _ => rfl) fun _ => rfl) s

theorem served_withUnsetHandle (q : Instr) (program : List MicroOp) (h : s.core.btValid = false) :
    served q program (withHandle sel clk s) = withUnsetHandle sel clk (served q program s) := by
  have ha : accept q (withHandle sel clk s) = withUnsetHandle sel clk (accept q s) :=
    (withUnsetHandle_of_unset (s := accept q s) sel clk h).symm
  have hq : requestOk (withHandle sel clk s).params q = requestOk s.params q := rfl
  have hg : gate q (withHandle sel clk s).core.lcState = gate q s.core.lcState := rfl
  unfold served
  rw [hq, hg, ha]
  split
  · split
    · exact withUnsetHandle_comm sel clk (g := raiseFault _ q) (fun _ => rfl) (fun _ => rfl) _
    · exact runProgram_withUnsetHandle sel clk q program _
  · exact (withUnsetHandle_of_unset (s := refuse s) sel clk h).symm

end

/-- Settles O3: the update of a handle that is not valid commutes with every operation of a request. -/
theorem unsetHandleIsNeverRead : Obligations.UnsetHandleIsNeverRead := by
  intro i s t sel clk hv h
  obtain ⟨ho, rfl⟩ := (exec_next_iff i s t).1 h
  exact (exec_next_iff i _ _).2 ⟨ho, (served_withUnsetHandle sel clk _ _ hv).symm⟩

end Sys2Proof.Machine

/-! # What a request leaves unchanged, and what it sends (10_state.md R17, R28; 42_lcd_controller.md R99) -/

namespace Sys2Proof.Machine

open Sys2Proof Sys2Proof.Claim

theorem FailedTransaction.ne_ok {addr : Addr7} {data : List Byte} {evs : List Event} {r : Result}
    (h : FailedTransaction addr data evs r) : r ≠ .ok := by
  cases h <;> simp

/-! ### Every request's frame -/

variable {i : Instr} {s t : State} {valid : Bool} {sel clk : Nat} {e : Env}

theorem HandleFor.sameHandle_of_valid (h : HandleFor i s valid sel clk e) (hv : s.core.btValid = true) :
    valid = s.core.btValid ∧ sel = s.core.btSel ∧ clk = s.core.btClk := by
  cases h with
  | found => exact ⟨hv.symm, rfl, rfl⟩
  | written _ _ hv' | unused hv' => simp [hv] at hv'

/-- A request without uBUSINIT runs with the handle and the idle answers as they are. -/
theorem HandleFor.same_of_noInit (h : HandleFor i s valid sel clk e) (hb : busArgs s.params i = none) :
    (valid = s.core.btValid ∧ sel = s.core.btSel ∧ clk = s.core.btClk) ∧ e = s.env := by
  cases h with
  | found hv => exact ⟨⟨hv.symm, rfl, rfl⟩, rfl⟩
  | written _ _ _ hb' => simp [hb] at hb'
  | unused hv => exact ⟨⟨hv.symm, rfl, rfl⟩, rfl⟩

theorem marked_appendsOnly (s : State) : appendsOnly s s.marked :=
  ⟨rfl, rfl, ⟨[], (List.append_nil _).symm⟩, .inl rfl, .inr rfl, .inl rfl, .inl rfl, nofun⟩

theorem faulted_appendsOnly (s : State) (f : FaultKind) (q : Instr) : appendsOnly s (s.faulted f q) :=
  ⟨rfl, rfl, ⟨[], (List.append_nil _).symm⟩, .inl rfl, .inl rfl, .inr ⟨f, q, rfl⟩, .inl rfl,
    fun _ => .inr ⟨rfl, rfl, rfl, rfl⟩⟩

/-- A failure of a state whose trace has grown and whose marks are as they were. -/
theorem failWith_appendsOnly (r : Result) (q : Instr) {u : State} (hp : u.params = s.params) (hi : u.inbox = s.inbox)
    (ht : ∃ evs, u.core.trace = s.core.trace ++ evs) (hres : u.results = s.results)
    (hr : u.core.refused = s.core.refused) (hf : u.core.faults = s.core.faults) (hh : u.core.hung = s.core.hung) :
    appendsOnly s (failWith r q u) := by
  refine ⟨by simp [hp], by simp [hi], by simpa using ht, ?_, .inl (by simp [hr]), .inl (by simp [hf]), ?_,
    fun _ => failWith_idleOrHung r q u⟩
  · exact (failWith_results r q u).imp (·.trans hres) fun h => ⟨r, by simpa [returned, hres] using h⟩
  · exact (failWith_hung r q u).imp (·.trans hh) (hp ▸ ·)

theorem RequestEnd.appendsOnly (h : RequestEnd i s t) : appendsOnly s t := by
  cases h with
  | refused => exact marked_appendsOnly s
  | gated | notReady | handleChanged => exact faulted_appendsOnly s _ _
  | busBusy => exact failWith_appendsOnly _ _ rfl rfl ⟨[], (List.append_nil _).symm⟩ rfl rfl rfl rfl
  | completed =>
    exact ⟨rfl, rfl, ⟨_, rfl⟩, .inr ⟨.ok, rfl⟩, .inl rfl, .inl rfl, .inl rfl, fun _ => .inr ⟨rfl, rfl, rfl, rfl⟩⟩
  | failed => exact failWith_appendsOnly _ _ rfl rfl ⟨_, List.append_assoc _ _ _⟩ rfl rfl rfl rfl

/-- Only a request that initialises the bus writes the handle, and only one that is not valid (10_state.md R15). -/
theorem RequestEnd.sameHandle (h : RequestEnd i s t) (hs : s.core.btValid = true ∨ busArgs s.params i = none) :
    sameHandle s t := by
  have same : ∀ {valid sel clk e}, HandleFor i s valid sel clk e →
      valid = s.core.btValid ∧ sel = s.core.btSel ∧ clk = s.core.btClk := fun hh =>
    hs.elim hh.sameHandle_of_valid fun hb => (hh.same_of_noInit hb).1
  cases h with
  | refused | gated | notReady | handleChanged => exact ⟨rfl, rfl, rfl⟩
  | busBusy _ _ _ _ hv hb => simp [hv, hb] at hs
  | completed _ _ _ _ _ _ hh => exact same hh
  | failed valid sel clk e env n addr data evs r ph hq hg hh =>
    obtain ⟨hv, hsel, hclk⟩ := sameHandle_failWith r i.asRequest _
    obtain ⟨hv', hsel', hclk'⟩ := same hh
    exact ⟨hv.trans hv', hsel.trans hsel', hclk.trans hclk'⟩

/-- Only a request that initialises the bus asks whether it is idle. -/
theorem RequestEnd.idle (h : RequestEnd i s t) (hb : busArgs s.params i = none) : t.env.idle = s.env.idle := by
  cases h with
  | refused | gated | notReady | handleChanged => rfl
  | busBusy _ _ _ _ _ hb' => simp [hb] at hb'
  | completed _ _ _ _ _ _ hh => simp [Env.after, (hh.same_of_noInit hb).2]
  | failed _ _ _ _ _ _ _ _ _ _ _ _ _ hh he => simp [he, (hh.same_of_noInit hb).2]

/-- `lc_state` changes by the micro-program's own write or by the failure of an LC_INIT. -/
theorem RequestEnd.lcState (h : RequestEnd i s t) : t.core.lcState = s.core.lcState ∨
    (requestOk s.params i.asRequest = true ∧ returned s t .ok ∧
      t.core.lcState = (programOf s.params i).foldl MicroOp.lcAfter s.core.lcState) ∨
    (isLcInit i = true ∧ t.core.lcState = .failed ∧ ∃ r, returned s t r ∧ r ≠ .ok) := by
  have fail : ∀ {r u}, u.core.lcState = s.core.lcState → u.results = s.results → r ≠ .ok →
      (failWith r i.asRequest u).core.lcState = s.core.lcState ∨
        (isLcInit i = true ∧ (failWith r i.asRequest u).core.lcState = .failed ∧
          ∃ r', returned s (failWith r i.asRequest u) r' ∧ r' ≠ .ok) := by
    intro r u hl hres hne
    rcases failWith_lcState r i.asRequest u with h | ⟨hi, hf, hr⟩
    · exact .inl (h.trans hl)
    · exact .inr ⟨by simpa using hi, hf, r, by simpa [returned, hres] using hr, hne⟩
  cases h with
  | refused | gated | notReady | handleChanged => exact .inl rfl
  | busBusy => exact Or.imp_right .inr (fail rfl rfl nofun)
  | completed _ _ _ _ hq => exact .inr (.inl ⟨hq, rfl, rfl⟩)
  | failed _ _ _ _ _ _ _ _ _ _ _ _ _ _ _ _ hf => exact Or.imp_right .inr (fail rfl rfl hf.ne_ok)

/-! ### What the micro-programs write to `lc_state` -/

@[simp] theorem sendNibble_lcAfter (p : Params) (nib : Nibble) (rs rw bl : Bit) (st : LcState) :
    (sendNibble p nib rs rw bl).foldl MicroOp.lcAfter st = st := rfl

@[simp] theorem putcProgram_lcAfter (p : Params) (ch : Byte) (st : LcState) :
    (putcProgram p ch).foldl MicroOp.lcAfter st = st := rfl

@[simp] theorem putsProgram_lcAfter (p : Params) (text : List Nat) (st : LcState) :
    (putsProgram p text).foldl MicroOp.lcAfter st = st := by
  unfold putsProgram
  induction sentChars text with
  | nil => rfl
  | cons c cs ih => simpa using ih

theorem lcCmdProgram_lcAfter (p : Params) (code : Byte) (st : LcState) :
    (lcCmdProgram p code).foldl MicroOp.lcAfter st = if selectsMode8 code then .mode8 else st := by
  unfold lcCmdProgram
  split <;> rfl

theorem lcInitProgram_lcAfter (p : Params) (sel : Nat) (clk : Option Nat) (st : LcState) :
    (lcInitProgram p sel clk).foldl MicroOp.lcAfter st = .ready := rfl

/-- The codes 0x30..0x3F (42_lcd_controller.md R99). -/
theorem div16_of_selectsMode8 {code : Nat} (hc : code < 256) (h : selectsMode8 (BitVec.ofNat 8 code) = true) :
    code / 16 = 3 := by
  have all : ∀ b : Byte, selectsMode8 b = true → b.toNat / 16 = 3 := by decide
  simpa [Nat.mod_eq_of_lt hc] using all _ h

/-- A family or a pseudo-instruction is the LC_CMD request of its code (30_encoding.md R54, R62). -/
theorem asRequest_of_commandCode {code : Nat} (h : commandCode i = some code) : i.asRequest = .lcCmd code := by
  cases i <;> simp only [commandCode, familyCode, reduceCtorEq, Option.some.injEq] at h <;> subst h <;>
    simp only [Instr.asRequest, Instr.lcCmd.injEq]
  case clearDisplay => decide
  case returnHome u => revert u; decide
  case entryModeSet j k => revert j k; decide
  case displayControl d c b => revert d c b; decide
  case cursorShift j k u => revert j k u; decide
  case functionSet4 n f u => revert n f u; decide
  case functionSet8 n f u => revert n f u; decide
  case setCgramAddr a => revert a; decide
  case setDdramAddr a => revert a; decide
  case lcFset dl n f => revert dl n f; decide
  case lcDctl d c b => revert d c b; decide
  case lcLine1 off => revert off; decide
  case lcLine2 off => revert off; decide

/-! ### The frames -/

theorem busArgs_of_lcCmd {code : Nat} (p : Params) (h : i.asRequest = .lcCmd code) : busArgs p i = none := by
  simp [busArgs, h]

theorem isLcInit_of_lcCmd {code : Nat} (h : i.asRequest = .lcCmd code) : isLcInit i = false := by
  simp [isLcInit, h]

theorem programOf_of_lcCmd {code : Nat} (p : Params) (h : i.asRequest = .lcCmd code) :
    programOf p i = lcCmdProgram p (BitVec.ofNat 8 code) := by
  simp [programOf, h]

/-- A request without uBUSINIT whose micro-program writes no `lc_state` changes neither the handle nor `lc_state`, and asks for no
idle bus. -/
theorem RequestEnd.plain_frame (h : RequestEnd i s t) (hb : busArgs s.params i = none) (hi : isLcInit i = false)
    (hl : (programOf s.params i).foldl MicroOp.lcAfter s.core.lcState = s.core.lcState) :
    Claim.appendsOnly s t ∧ t.core.lcState = s.core.lcState ∧ Claim.sameHandle s t ∧ t.env.idle = s.env.idle := by
  refine ⟨h.appendsOnly, ?_, h.sameHandle (.inr hb), h.idle hb⟩
  rcases h.lcState with h | ⟨-, -, h⟩ | ⟨h, -⟩
  · exact h
  · exact h.trans hl
  · simp [hi] at h

/-- BT_INIT shows nothing but a BUSINIT, and sends nothing (40_bus_transport.md R69). -/
theorem RequestEnd.btInit_bus {clk : Option Nat} (h : RequestEnd (.btInit sel clk) s t) :
    t.env.start = s.env.start ∧ t.env.ack = s.env.ack ∧
      (t.core.trace = s.core.trace ∨ ∃ sel clk, t.core.trace = s.core.trace ++ [Event.busInit sel clk]) := by
  have hprog : programOf s.params (.btInit sel clk) = [.busInit sel (effectiveClk s.params clk)] := rfl
  cases h with
  | refused | gated | notReady | handleChanged => exact ⟨rfl, rfl, .inl rfl⟩
  | busBusy => exact ⟨by simp, by simp, .inl (by simp)⟩
  | completed _ _ _ e _ _ hh =>
    obtain ⟨hstart, hack⟩ : e.start = s.env.start ∧ e.ack = s.env.ack := by cases hh <;> exact ⟨rfl, rfl⟩
    simp only [hprog, Env.after, startsOf_cons, acksOf_cons, MicroOp.starts, MicroOp.acks, hstart, hack]
    refine ⟨rfl, rfl, ?_⟩
    rcases s.core.btValid
    · exact .inr ⟨_, _, rfl⟩
    · exact .inl (List.append_nil _)
  | failed _ _ _ _ _ n _ _ _ _ _ _ _ _ _ hn =>
    rw [hprog] at hn
    simpa using List.mem_of_getElem? hn

/-- Settles O44: a bus request's micro-program writes no `lc_state`, and only BT_INIT has a uBUSINIT. -/
theorem frameOfTheBusRequests : Obligations.FrameOfTheBusRequests := by
  intro i s t h
  obtain ⟨-, hend⟩ := exec_end h
  refine ⟨?_, ?_⟩
  · intro hi
    cases i <;> simp only [isBusWrite, reduceCtorEq, exists_false, or_false, Bool.false_eq_true] at hi
    all_goals exact hend.plain_frame rfl rfl rfl
  · rintro sel clk rfl
    have hl : t.core.lcState = s.core.lcState := by
      rcases hend.lcState with h | ⟨-, -, h⟩ | ⟨h, -⟩
      · exact h
      · exact h
      · simp [isLcInit, Instr.asRequest] at h
    exact ⟨hend.appendsOnly, hl, fun hv => hend.sameHandle (.inl hv), hend.btInit_bus⟩

/-- Settles O45: what an LC request's micro-program writes to `lc_state`, and that only LC_INIT has a uBUSINIT. -/
theorem frameOfTheLcRequests : Obligations.FrameOfTheLcRequests := by
  intro i s t h
  obtain ⟨-, hend⟩ := exec_end h
  refine ⟨?_, ?_, ?_⟩
  · intro hi
    obtain ⟨happ, hlc, hhandle, hidle⟩ : appendsOnly s t ∧ t.core.lcState = s.core.lcState ∧ sameHandle s t ∧
        t.env.idle = s.env.idle := by
      cases i <;> simp only [isChars, Bool.false_eq_true] at hi
      case lcPutc ch => exact hend.plain_frame rfl rfl rfl
      case lcPuts text => exact hend.plain_frame rfl rfl (putsProgram_lcAfter _ _ _)
    exact ⟨happ, hhandle, hidle, hlc⟩
  · intro code hc
    have hreq := asRequest_of_commandCode hc
    have hb := busArgs_of_lcCmd s.params hreq
    refine ⟨hend.appendsOnly, hend.sameHandle (.inr hb), hend.idle hb, ?_⟩
    rcases hend.lcState with h | ⟨hq, hret, h⟩ | ⟨h, -⟩
    · exact .inl h
    · rw [programOf_of_lcCmd _ hreq, lcCmdProgram_lcAfter] at h
      split at h
      · next hm =>
        rw [hreq] at hq
        exact .inr ⟨div16_of_selectsMode8 (by simpa [requestOk, Instr.wellFormed] using hq) hm, h, hret⟩
      · exact .inl h
    · simp [isLcInit_of_lcCmd hreq] at h
  · rintro sel clk rfl
    refine ⟨hend.appendsOnly, fun hv => hend.sameHandle (.inl hv), ?_⟩
    rcases hend.lcState with h | ⟨-, hret, h⟩ | ⟨-, h⟩
    · exact .inl h
    · exact .inr (.inl ⟨h, hret⟩)
    · exact .inr (.inr h)

/-! ### The bytes a request sends -/

/-- The bytes of a transaction: the address byte and the data bytes. -/
def MicroOp.bytes : MicroOp → List Byte
  | .write addr data => addrByte addr :: data
  | _ => []

theorem mem_bytes_of_okEvents {op : MicroOp} {v : Bool} {b : Byte} {a : Ack} (h : Event.byte b a ∈ op.okEvents v) :
    b ∈ op.bytes := by
  cases op with
  | busInit sel clk => cases v <;> simp [MicroOp.okEvents] at h
  | write addr data =>
    simp only [MicroOp.okEvents, okTransaction, List.mem_cons, List.mem_append, List.mem_map, Event.byte.injEq,
      reduceCtorEq, false_or, List.not_mem_nil, or_false] at h
    rcases h with ⟨rfl, -⟩ | ⟨c, hc, rfl, -⟩
    · exact List.mem_cons_self
    · exact List.mem_cons_of_mem _ hc
  | delay cls => simp [MicroOp.okEvents] at h
  | setLc st => simp [MicroOp.okEvents] at h

theorem FailedTransaction.mem_bytes {addr : Addr7} {data : List Byte} {evs : List Event} {r : Result}
    (hf : FailedTransaction addr data evs r) {b : Byte} {a : Ack} (h : Event.byte b a ∈ evs) :
    b ∈ (MicroOp.write addr data).bytes := by
  cases hf <;>
    simp only [List.mem_cons, List.mem_append, List.mem_map, Event.byte.injEq, reduceCtorEq, false_or, or_false,
      List.not_mem_nil] at h
  case addrNack | addrStall => simp [MicroOp.bytes, h.1]
  case dataNack pre c post hd | dataStall pre c post hd =>
    subst hd
    rcases h with ⟨rfl, -⟩ | ⟨d, hd, rfl, -⟩ | ⟨rfl, -⟩ <;> simp [MicroOp.bytes]
    exact .inr (.inl hd)

/-- A request appends events whose bytes its micro-operations name. -/
theorem RequestEnd.bytes (h : RequestEnd i s t) : ∃ evs, t.core.trace = s.core.trace ++ evs ∧
    ∀ b a, Event.byte b a ∈ evs → ∃ op ∈ programOf s.params i, b ∈ op.bytes := by
  have ok : ∀ {program v b a}, Event.byte b a ∈ List.flatMap (MicroOp.okEvents v) program →
      ∃ op ∈ program, b ∈ op.bytes := by
    intro program v b a hb
    obtain ⟨op, hop, hb⟩ := List.mem_flatMap.1 hb
    exact ⟨op, hop, mem_bytes_of_okEvents hb⟩
  cases h with
  | refused | gated | notReady | handleChanged => exact ⟨[], (List.append_nil _).symm, by simp⟩
  | busBusy => exact ⟨[], by simp, by simp⟩
  | completed => exact ⟨_, rfl, fun b a hb => ok hb⟩
  | failed _ _ _ _ _ n addr data evs _ _ _ _ _ _ hn hf =>
    refine ⟨_, (failWith_trace _ _ _).trans (List.append_assoc _ _ _), fun b a hb => ?_⟩
    rcases List.mem_append.1 hb with hb | hb
    · obtain ⟨op, hop, hb⟩ := ok hb
      exact ⟨op, List.mem_of_mem_take hop, hb⟩
    · exact ⟨_, List.mem_of_getElem? hn, hf.mem_bytes hb⟩

/-- The byte is the expander's address byte or carries `rs`, RW = 0 and the backlight. -/
def LcByte (p : Params) (rs : Bit) (b : Byte) : Prop :=
  b.toNat = p.slaveAddr.toNat * 2 ∨
    (b.getLsbD 0 = p.bl.getLsbD 0 ∧ b.getLsbD 2 = false ∧ b.getLsbD 3 = rs.getLsbD 0)

theorem lcByte_addrByte (p : Params) (rs : Bit) : LcByte p rs (addrByte p.slaveAddr) := by
  have all : ∀ addr : Addr7, (addrByte addr).toNat = addr.toNat * 2 := by decide
  exact .inl (all _)

theorem lcByte_expanderByte (p : Params) (nib : Nibble) (rs en : Bit) : LcByte p rs (expanderByte nib rs 0 en p.bl) := by
  refine .inr ?_
  generalize p.bl = bl
  revert nib rs en bl
  decide

/-- Every byte the program sends is an `LcByte`. -/
def SendsLc (p : Params) (rs : Bit) (program : List MicroOp) : Prop := ∀ op ∈ program, ∀ b ∈ op.bytes, LcByte p rs b

theorem sendsLc_append {p : Params} {rs : Bit} {xs ys : List MicroOp} :
    SendsLc p rs (xs ++ ys) ↔ SendsLc p rs xs ∧ SendsLc p rs ys := List.forall_mem_append

theorem sendsLc_nil {p : Params} {rs : Bit} : SendsLc p rs [] := List.forall_mem_nil _

/-- A micro-operation that is no uWRITE sends nothing. -/
theorem sendsLc_of_noBytes {p : Params} {rs : Bit} {op : MicroOp} (h : op.bytes = []) : SendsLc p rs [op] := by
  simp [SendsLc, h]

variable (p : Params)

theorem sendNibble_sendsLc (nib : Nibble) (rs : Bit) : SendsLc p rs (sendNibble p nib rs 0 p.bl) := by
  simp only [SendsLc, sendNibble, uXfer, List.forall_mem_cons, MicroOp.bytes, List.not_mem_nil, false_implies,
    implies_true, and_true]
  exact ⟨⟨lcByte_addrByte p rs, lcByte_expanderByte p nib rs 1⟩, lcByte_addrByte p rs, lcByte_expanderByte p nib rs 0⟩

theorem sendByte_sendsLc (v : Byte) (rs : Bit) : SendsLc p rs (sendByte p v rs p.bl) :=
  sendsLc_append.2 ⟨sendNibble_sendsLc p _ rs, sendNibble_sendsLc p _ rs⟩

theorem lcCmdProgram_sendsLc (code : Byte) : SendsLc p 0 (lcCmdProgram p code) := by
  refine sendsLc_append.2 ⟨sendsLc_append.2 ⟨sendByte_sendsLc p code 0, sendsLc_of_noBytes rfl⟩, ?_⟩
  split
  · exact sendsLc_of_noBytes rfl
  · exact sendsLc_nil

theorem putcProgram_sendsLc (ch : Byte) : SendsLc p 1 (putcProgram p ch) :=
  sendsLc_append.2 ⟨sendByte_sendsLc p ch 1, sendsLc_of_noBytes rfl⟩

theorem putsProgram_sendsLc (text : List Nat) : SendsLc p 1 (putsProgram p text) := by
  intro op h
  obtain ⟨c, -, hc⟩ := List.mem_flatMap.1 h
  exact putcProgram_sendsLc p c op hc

theorem lcInitProgram_sendsLc (sel : Nat) (clk : Option Nat) : SendsLc p 0 (lcInitProgram p sel clk) := by
  have delay (cls : DelayClass) : SendsLc p 0 [.delay cls] := sendsLc_of_noBytes rfl
  have busInit : SendsLc p 0 [.busInit sel (effectiveClk p clk)] := sendsLc_of_noBytes rfl
  have setLc : SendsLc p 0 [.setLc .ready] := sendsLc_of_noBytes rfl
  simp only [lcInitProgram, initSequence, sendsLc_append, sendNibble_sendsLc, delay, busInit, setLc, and_self]

/-- Settles O46: every byte sent is a byte of a micro-operation, and those of the LC requests are `LcByte`s. -/
theorem lcRequestsSendNoReadAndKeepTheBacklight : Obligations.LcRequestsSendNoReadAndKeepTheBacklight := by
  intro i s t h
  obtain ⟨evs, ht, hbytes⟩ := (exec_end h).2.bytes
  have sends : ∀ {rs}, SendsLc s.params rs (programOf s.params i) → lcBytes s.params rs evs := by
    intro rs hs b a hb
    obtain ⟨op, hop, hb⟩ := hbytes b a hb
    exact hs op hop b hb
  refine ⟨evs, ht, ?_, ?_⟩
  · rintro (hc | ⟨sel, clk, rfl⟩)
    · obtain ⟨code, hc⟩ := Option.isSome_iff_exists.1 hc
      rw [programOf_of_lcCmd _ (asRequest_of_commandCode hc)] at sends
      exact sends (lcCmdProgram_sendsLc _ _)
    · exact sends (lcInitProgram_sendsLc _ _ _)
  · intro hi
    cases i <;> simp only [isChars, Bool.false_eq_true] at hi
    case lcPutc ch => exact sends (putcProgram_sendsLc _ _)
    case lcPuts text => exact sends (putsProgram_sendsLc _ _)

end Sys2Proof.Machine

/-! # What the observer's LCD receives (10_state.md R27; 20_memory.md R36; 41_expander_encoder.md R90, R91) -/

namespace Sys2Proof.Machine

open Sys2Proof Sys2Proof.Claim

/-! ### The observer -/

section

variable (slave : Addr7) (taken : Nat → Bool)

theorem observe_append (xs ys : List Event) (o : Observed) :
    observe slave taken (xs ++ ys) o = observe slave taken ys (observe slave taken xs o) :=
  List.foldl_append

@[simp] theorem observe_delay (cls : DelayClass) (o : Observed) : observe slave taken [.delay cls] o = o := rfl

@[simp] theorem latchByte_phase (b : Byte) (o : Observed) : (latchByte b o).phase = o.phase := rfl

/-- Where EN falls the LCD samples; where it rises or stays it does not. -/
theorem latchByte_rise {b : Byte} (o : Observed) (h : lineEn b = 1#1) : latchByte b o = { o with latch := b } := by
  simp [latchByte, h]

theorem latchByte_fall {b : Byte} {o : Observed} (h : lineEn o.latch = 1#1) (h' : lineEn b = 0#1) :
    latchByte b o = { o with latch := b, nibbles := o.nibbles ++ [(lineRs b, lineNibble b)] } := by
  simp [latchByte, h, h']

end

/-! ### The lines of ENCODE (30_encoding.md R52) -/

@[simp] theorem lineEn_expanderByte (nib : Nibble) (rs rw en bl : Bit) : lineEn (expanderByte nib rs rw en bl) = en := by
  revert nib rs rw en bl; decide

@[simp] theorem lineRs_expanderByte (nib : Nibble) (rs rw en bl : Bit) : lineRs (expanderByte nib rs rw en bl) = rs := by
  revert nib rs rw en bl; decide

@[simp] theorem lineNibble_expanderByte (nib : Nibble) (rs rw en bl : Bit) :
    lineNibble (expanderByte nib rs rw en bl) = nib := by
  revert nib rs rw en bl; decide

/-! ### A nibble, a byte, a string -/

/-- The expander's lines after the events are `o`'s but for the latch, and the LCD has sampled `new`. -/
def Sampled (p : Params) (taken : Nat → Bool) (evs : List Event) (new : List (Bit × Nibble)) : Prop :=
  ∀ o : Observed, o.phase = .outside →
    ∃ latch, observe p.slaveAddr taken evs o = { o with latch := latch, nibbles := o.nibbles ++ new }

variable {p : Params} {taken : Nat → Bool}

/-- A transaction of one byte to the expander latches the byte. -/
theorem observe_okXfer (b : Byte) {o : Observed} (h : o.phase = .outside) :
    observe p.slaveAddr taken (okXfer p b) o = latchByte b o := by
  simp [observe, okXfer, okTransaction, observeEvent, observeByte, latchByte, ← h]

theorem sampled_nil : Sampled p taken [] [] := fun o _ => ⟨o.latch, by simp [observe]⟩

theorem sampled_delay (cls : DelayClass) : Sampled p taken [.delay cls] [] := fun o _ => ⟨o.latch, by simp⟩

theorem Sampled.append {evs evs' : List Event} {new new' : List (Bit × Nibble)} (h : Sampled p taken evs new)
    (h' : Sampled p taken evs' new') : Sampled p taken (evs ++ evs') (new ++ new') := by
  intro o ho
  obtain ⟨l, hl⟩ := h o ho
  obtain ⟨l', hl'⟩ := h' { o with latch := l, nibbles := o.nibbles ++ new } ho
  exact ⟨l', by rw [observe_append, hl, hl', List.append_assoc]⟩

/-- The EN = 1 byte raises EN, the EN = 0 byte lets the LCD sample the nibble, whatever the lines were before. -/
theorem sampled_nibble (nib : Nibble) (rs rw bl : Bit) : Sampled p taken (okNibble p nib rs rw bl) [(rs, nib)] := by
  intro o ho
  refine ⟨expanderByte nib rs rw 0 bl, ?_⟩
  rw [okNibble, observe_append, observe_okXfer _ ho, latchByte_rise o (lineEn_expanderByte nib rs rw 1 bl),
    observe_okXfer (o := { o with latch := expanderByte nib rs rw 1 bl }) _ ho,
    latchByte_fall (lineEn_expanderByte nib rs rw 1 bl) (lineEn_expanderByte nib rs rw 0 bl),
    lineRs_expanderByte, lineNibble_expanderByte]

/-- The two nibbles of a byte, high nibble first (20_memory.md R36). -/
def byteNibbles (rs : Bit) (v : Byte) : List (Bit × Nibble) := [(rs, hiNibble v), (rs, loNibble v)]

theorem sampled_byte (v : Byte) (rs bl : Bit) : Sampled p taken (okByte p v rs bl) (byteNibbles rs v) := by
  have h : okByte p v rs bl = okNibble p (hiNibble v) rs 0 bl ++ okNibble p (loNibble v) rs 0 bl := by
    simp [okByte, sentBytes, okNibble]
  rw [h]
  exact (sampled_nibble _ rs 0 bl).append (sampled_nibble _ rs 0 bl)

theorem sampled_command (code : Byte) : Sampled p taken (okCommand p code) (byteNibbles 0 code) :=
  (sampled_byte code 0 p.bl).append (sampled_delay _)

theorem sampled_char (ch : Byte) : Sampled p taken (okChar p ch) (byteNibbles 1 ch) :=
  (sampled_byte ch 1 p.bl).append (sampled_delay _)

theorem sampled_chars (chars : List Byte) :
    Sampled p taken (chars.flatMap (okChar p)) (chars.flatMap (byteNibbles 1)) := by
  induction chars with
  | nil => exact sampled_nil
  | cons c cs ih => exact (sampled_char c).append ih

theorem hiNibble_append_loNibble (v : Byte) : hiNibble v ++ loNibble v = v := by
  revert v; decide

/-- Paired, the nibbles of the bytes are the bytes. -/
theorem pairNibbles_bytes (rs : Bit) (vs : List Byte) :
    pairNibbles (vs.flatMap (byteNibbles rs)) = vs.map (fun v => (rs, v)) := by
  induction vs with
  | nil => rfl
  | cons v vs ih => simp [byteNibbles, pairNibbles, hiNibble_append_loNibble, ← ih]

theorem length_bytesNibbles (rs : Bit) (vs : List Byte) : (vs.flatMap (byteNibbles rs)).length = 2 * vs.length := by
  simp [List.length_flatMap, byteNibbles, Nat.mul_comm]

/-! ### Commands and characters on a clean bus -/

variable {s : State} {i : Instr}

/-- A request without uBUSINIT on an initialised, clean bus shows every event of its micro-program. -/
theorem exec_clean (ho : s.portOpen = true) (hq : requestOk s.params i.asRequest = true)
    (hg : gate i s.core.lcState = none) (hv : s.core.btValid = true)
    (hp : ∀ op ∈ programOf s.params i, op.isPlain = true)
    (hc : s.clean (startsOf (programOf s.params i)) (acksOf (programOf s.params i)) = true) :
    ∃ t, exec i s = .next t ∧
      t.core.trace = s.core.trace ++ (programOf s.params i).flatMap (MicroOp.okEvents true) := by
  refine ⟨_, exec_of_accepted ho hq hg, ?_⟩
  rw [runProgram_clean i.asRequest _ (accept i.asRequest s) hp hv hc]
  rfl

theorem startsOf_append (xs ys : List MicroOp) : startsOf (xs ++ ys) = startsOf xs + startsOf ys := by
  simp [startsOf]

theorem acksOf_append (xs ys : List MicroOp) : acksOf (xs ++ ys) = acksOf xs + acksOf ys := by
  simp [acksOf]

theorem startsOf_lcCmdProgram (p : Params) (code : Byte) : startsOf (lcCmdProgram p code) = 4 := by
  unfold lcCmdProgram
  split <;> rfl

theorem acksOf_lcCmdProgram (p : Params) (code : Byte) : acksOf (lcCmdProgram p code) = 8 := by
  unfold lcCmdProgram
  split <;> rfl

theorem startsOf_putcPrograms (p : Params) (chars : List Byte) :
    startsOf (chars.flatMap (putcProgram p)) = 4 * chars.length := by
  induction chars with
  | nil => rfl
  | cons c cs ih =>
    rw [List.flatMap_cons, startsOf_append, ih, List.length_cons, show startsOf (putcProgram p c) = 4 from rfl]
    omega

theorem acksOf_putcPrograms (p : Params) (chars : List Byte) :
    acksOf (chars.flatMap (putcProgram p)) = 8 * chars.length := by
  induction chars with
  | nil => rfl
  | cons c cs ih =>
    rw [List.flatMap_cons, acksOf_append, ih, List.length_cons, show acksOf (putcProgram p c) = 8 from rfl]
    omega

theorem putcPrograms_events (p : Params) (chars : List Byte) :
    (chars.flatMap (putcProgram p)).flatMap (MicroOp.okEvents true) = chars.flatMap (okChar p) := by
  induction chars with
  | nil => rfl
  | cons c cs ih => simp [ih]

/-- Without a 0x00 in it all characters of a string are sent (30_encoding.md R64). -/
theorem sentChars_of_nonzero (chars : List Byte) (h : ∀ c ∈ chars, c ≠ 0) : sentChars (chars.map BitVec.toNat) = chars := by
  have hall : (chars.map BitVec.toNat).takeWhile (fun c => c != 0) = chars.map BitVec.toNat := by
    refine List.takeWhile_eq_self_iff.2 fun n hn => ?_
    obtain ⟨c, hc, rfl⟩ := List.mem_map.1 hn
    simpa [← BitVec.toNat_inj] using h c hc
  rw [sentChars, hall, List.map_map]
  simp [Function.comp_def]

/-- LC_PUTS of characters without 0x00 in READY on a clean bus. -/
theorem exec_lcPuts_clean {chars : List Byte} (ho : s.portOpen = true) (hl : s.core.lcState = .ready)
    (hv : s.core.btValid = true) (hz : ∀ c ∈ chars, c ≠ 0) (hc : s.clean (4 * chars.length) (8 * chars.length) = true) :
    ∃ t, exec (.lcPuts (chars.map BitVec.toNat)) s = .next t ∧
      t.core.trace = s.core.trace ++ chars.flatMap (okChar s.params) := by
  have hprog : programOf s.params (.lcPuts (chars.map BitVec.toNat)) = chars.flatMap (putcProgram s.params) := by
    simp [programOf, Instr.asRequest, putsProgram, sentChars_of_nonzero chars hz]
  have hq : requestOk s.params (Instr.lcPuts (chars.map BitVec.toNat)).asRequest = true := by
    simpa [requestOk, Instr.asRequest, Instr.wellFormed] using fun c _ => BitVec.isLt c
  have h := exec_clean ho hq (by simp [gate, Instr.asRequest, gateLcd, hl]) hv (putsProgram_plain _ _)
    (by rw [hprog, startsOf_putcPrograms, acksOf_putcPrograms]; exact hc)
  rwa [hprog, putcPrograms_events] at h

/-- LC_CMD in READY on a clean bus. -/
theorem exec_lcCmd_clean {code : Byte} (ho : s.portOpen = true) (hl : s.core.lcState = .ready)
    (hv : s.core.btValid = true) (hc : s.clean 4 8 = true) :
    ∃ t, exec (.lcCmd code.toNat) s = .next t ∧ t.core.trace = s.core.trace ++ okCommand s.params code := by
  have hprog : programOf s.params (.lcCmd code.toNat) = lcCmdProgram s.params code := by
    simp [programOf, Instr.asRequest]
  have hq : requestOk s.params (Instr.lcCmd code.toNat).asRequest = true := by
    simpa [requestOk, Instr.asRequest, Instr.wellFormed] using BitVec.isLt code
  have h := exec_clean ho hq (by simp [gate, Instr.asRequest, gateLcd, hl]) hv
    (by rw [hprog]; exact lcCmdProgram_plain _ _)
    (by rw [hprog, startsOf_lcCmdProgram, acksOf_lcCmdProgram]; exact hc)
  rwa [hprog, lcCmdProgram_events] at h

/-- Settles O55: the characters' events are sampled as their nibbles, which pair to the characters; so are the command's. -/
theorem lcdReceivesWhatWasSent : Obligations.LcdReceivesWhatWasSent := by
  intro s taken o ho hl hv hout
  constructor
  · intro chars hz hc
    obtain ⟨t, hx, htrace⟩ := exec_lcPuts_clean ho hl hv hz hc
    obtain ⟨latch, hobs⟩ := sampled_chars (p := s.params) (taken := taken) chars o hout
    exact ⟨t, _, _, hx, htrace, by rw [hobs], pairNibbles_bytes 1 chars, length_bytesNibbles 1 chars⟩
  · intro code hc
    obtain ⟨t, hx, htrace⟩ := exec_lcCmd_clean (code := code) ho hl hv hc
    obtain ⟨latch, hobs⟩ := sampled_command (p := s.params) (taken := taken) code o hout
    exact ⟨t, _, byteNibbles 0 code, hx, htrace, by rw [hobs], pairNibbles_bytes 0 [code], rfl⟩

end Sys2Proof.Machine

/-! # The address byte (20_memory.md R32) -/

namespace Sys2Proof.Machine

open Sys2Proof Sys2Proof.Claim

/-- Appending the direction bit 0 doubles the address. -/
theorem addrByte_toNat (addr : Addr7) : (addrByte addr).toNat = addr.toNat * 2 := by
  rw [addrByte, BitVec.toNat_append, BitVec.toNat_ofNat, Nat.zero_mod, Nat.or_zero, Nat.shiftLeft_eq, pow_one]

/-- Settles O6: appending a 0 doubles the address, and the bit appended is the lowest. -/
theorem addressByteIsAWrite : Obligations.AddressByteIsAWrite := by
  intro addr
  have hbit : (addrByte addr).getLsbD 0 = ((addrByte addr).extractLsb' 0 1).getLsbD 0 := by
    rw [BitVec.getLsbD_extractLsb', decide_eq_true Nat.one_pos, Bool.true_and]
  exact ⟨addrByte_toNat addr, by rw [hbit, addrByte_direction, BitVec.getLsbD_zero]⟩

end Sys2Proof.Machine

/-! # Command codes and their families (30_encoding.md R54, R61, R62; 42_lcd_controller.md R98) -/

namespace Sys2Proof.Machine

open Sys2Proof Sys2Proof.Claim

/-! ### The rows of R54 are ranges of codes -/

/-- The first code of a row: its match. -/
def firstCode (fam : CmdFamily) : Nat := fam.pattern.1.toNat

/-- The first code after those of a row: the bits its mask leaves free are its lowest ones. -/
def endCode (fam : CmdFamily) : Nat := firstCode fam + (256 - fam.pattern.2.toNat)

/-- A row's match and mask select its range. -/
theorem covers_iff (fam : CmdFamily) (c : Byte) :
    fam.covers c = true ↔ firstCode fam ≤ c.toNat ∧ c.toNat < endCode fam := by
  cases fam <;> revert c <;> decide

/-- A code's family is the row in whose range it lies. -/
theorem family_eq_iff (c : Byte) (fam : CmdFamily) :
    family c = fam ↔ firstCode fam ≤ c.toNat ∧ c.toNat < endCode fam := by
  cases fam <;> revert c <;> decide

theorem delayClass_eq_delayOf (c : Byte) : delayClass c = delayOf c.toNat := by
  simp [delayClass, delayOf, ← BitVec.toNat_inj]

theorem delayClass_eq_long_iff (c : Byte) : delayClass c = .long ↔ c.toNat = 1 ∨ c.toNat = 2 ∨ c.toNat = 3 := by
  simp only [delayClass_eq_delayOf, delayOf, ite_eq_left_iff, reduceCtorEq, imp_false, not_not]

/-- Settles O7: a row covers a code, and is its family, exactly when the code lies in the row's range. -/
theorem familiesPartitionTheCodes : Obligations.FamiliesPartitionTheCodes := by
  intro c
  have hnone : family c = .none ↔ 0 ≤ c.toNat ∧ c.toNat < 1 := family_eq_iff c .none
  have hclear : family c = .clearDisplay ↔ 1 ≤ c.toNat ∧ c.toNat < 2 := family_eq_iff c .clearDisplay
  have hhome : family c = .returnHome ↔ 2 ≤ c.toNat ∧ c.toNat < 4 := family_eq_iff c .returnHome
  refine ⟨fun fam => (covers_iff fam c).trans ((family_eq_iff c fam).symm.trans eq_comm), ?none, ?clear, hhome,
    family_eq_iff c .entryModeSet, family_eq_iff c .displayControl, family_eq_iff c .cursorShift,
    family_eq_iff c .functionSet4, family_eq_iff c .functionSet8, family_eq_iff c .setCgramAddr,
    (family_eq_iff c .setDdramAddr).trans ⟨And.left, fun h => ⟨h, c.isLt⟩⟩, ?delay⟩
  case none => rw [hnone]; omega
  case clear => rw [hclear]; omega
  case delay => rw [delayClass_eq_long_iff, hclear, hhome]; omega

/-! ### Families and pseudo-instructions are commands -/

variable {i : Instr} {code : Nat}

theorem commandCode_of_familyCode (h : familyCode i = some code) : commandCode i = some code := by
  cases i <;> simp only [familyCode, reduceCtorEq] at h <;> exact h

theorem lcCmd_or_familyCode_of_commandCode (h : commandCode i = some code) :
    i = .lcCmd code ∨ familyCode i = some code := by
  cases i
  case lcCmd c => exact .inl (congrArg _ (Option.some.inj h))
  all_goals exact .inr h

/-- Every value of a family's or a pseudo-instruction's fields spells a code. -/
theorem familyCode_lt (h : familyCode i = some code) : code < 256 := by
  cases i <;> simp only [familyCode, reduceCtorEq, Option.some.injEq] at h <;> omega

/-- Settles O8: the code of a family or a pseudo-instruction is what its fields spell, and a line offset of the assembler fits
its 6 bits. -/
theorem pseudoInstructionsAreCommands : Obligations.PseudoInstructionsAreCommands := by
  refine ⟨fun i n h => ⟨asRequest_of_commandCode (commandCode_of_familyCode h), familyCode_lt h⟩, ⟨rfl, rfl⟩, ⟨rfl, rfl⟩,
    fun off => ?_⟩
  constructor
  · intro h
    have hoff : (BitVec.ofNat 6 off).toNat = off := by simp; omega
    have h1 : (Instr.lcLine1 (BitVec.ofNat 6 off)).asRequest = .lcCmd (0x80 + off) :=
      asRequest_of_commandCode (by simp [commandCode, familyCode, hoff])
    have h2 : (Instr.lcLine2 (BitVec.ofNat 6 off)).asRequest = .lcCmd (0xC0 + off) :=
      asRequest_of_commandCode (by simp [commandCode, familyCode, hoff])
    simp [asmLine1, asmLine2, h, h1, h2]
  · intro h
    simp [asmLine1, asmLine2, Nat.not_le.2 h]

end Sys2Proof.Machine

/-! # The listing form of a request (30_encoding.md R49, R68) -/

namespace Sys2Proof.Machine

open Sys2Proof Sys2Proof.Claim

variable {i : Instr} {code : Nat}

/-- Settles O9: the decoder evaluates on the words. -/
theorem listedWordsDecode : Obligations.ListedWordsDecode := by
  unfold Obligations.ListedWordsDecode
  decide

/-! ### Decoding what was encoded -/

/-- The decoder reads back the listing form of every instruction that has one. -/
theorem decode_encode : ∀ i : Instr, Laws.RoundTrip.Statement i
  | .btInit sel clk => Laws.RoundTrip.btInit sel clk
  | .btWrite addr data => Laws.RoundTrip.btWrite addr data
  | .ebNibble nib rs rw bl => Laws.RoundTrip.ebNibble nib rs rw bl
  | .lcInit sel clk => Laws.RoundTrip.lcInit sel clk
  | .lcCmd code => Laws.RoundTrip.lcCmd code
  | .lcPutc ch => Laws.RoundTrip.lcPutc ch
  | .lcPuts text => Laws.RoundTrip.lcPuts text
  | .reserved header => Laws.RoundTrip.reserved header
  | .cmdNone => Laws.RoundTrip.cmdNone
  | .clearDisplay => Laws.RoundTrip.clearDisplay
  | .returnHome u => Laws.RoundTrip.returnHome u
  | .entryModeSet inc sh => Laws.RoundTrip.entryModeSet inc sh
  | .displayControl d c b => Laws.RoundTrip.displayControl d c b
  | .cursorShift s r u => Laws.RoundTrip.cursorShift s r u
  | .functionSet4 n f u => Laws.RoundTrip.functionSet4 n f u
  | .functionSet8 n f u => Laws.RoundTrip.functionSet8 n f u
  | .setCgramAddr a => Laws.RoundTrip.setCgramAddr a
  | .setDdramAddr a => Laws.RoundTrip.setDdramAddr a
  | .lcFset dl n f => Laws.RoundTrip.lcFset dl n f
  | .lcDctl d c b => Laws.RoundTrip.lcDctl d c b
  | .lcLine1 off => Laws.RoundTrip.lcLine1 off
  | .lcLine2 off => Laws.RoundTrip.lcLine2 off

/-- A command whose code is given as a number is listed by a byte. -/
theorem commandCode_lt_of_listable (h : commandCode i = some code) (hl : i.listable = true) : code < 256 := by
  rcases lcCmd_or_familyCode_of_commandCode h with rfl | hf
  · simpa [Instr.listable] using hl
  · exact familyCode_lt hf

theorem normal_of_lcCmd (h : i.asRequest = .lcCmd code) : i.normal = .ofCode (BitVec.ofNat 8 code) := by
  simp [Instr.normal, h]

theorem normal_of_commandCode_none (h : commandCode i = none) : i.normal = i := by
  cases i <;> simp only [commandCode, familyCode, reduceCtorEq] at h <;> rfl

theorem normal_ofCode (c : Byte) : (Instr.ofCode c).normal = .ofCode c := by
  rw [normal_of_lcCmd (asRequest_ofCode c), BitVec.ofNat_toNat, BitVec.setWidth_eq]

/-- The normal form of an instruction is the same request. -/
theorem asRequest_normal (hl : i.listable = true) : i.normal.asRequest = i.asRequest := by
  rcases h : commandCode i with _ | code
  · rw [normal_of_commandCode_none h]
  · have hc : (BitVec.ofNat 8 code).toNat = code := by simpa using commandCode_lt_of_listable h hl
    rw [normal_of_lcCmd (asRequest_of_commandCode h), asRequest_ofCode, asRequest_of_commandCode h, hc]

/-- Settles O10: the round trip of each constructor, and that the normal form renames commands only. -/
theorem decodeReadsWhatEncodeWrote : Obligations.DecodeReadsWhatEncodeWrote :=
  fun i hl => ⟨decode_encode i hl, asRequest_normal hl, normal_of_commandCode_none, normal_ofCode⟩

/-! ### Encoding what was decoded -/

@[simp] theorem byteOf_toNat_self (b : Byte) : byteOf b.toNat = b := by simp [byteOf]

@[simp] theorem byteOf_comp_toNat : byteOf ∘ BitVec.toNat = id := funext byteOf_toNat_self

/-- The four clock bytes are those of the number they spell. -/
theorem clkBytes_clkOperand (b3 b2 b1 b0 : Byte) : clkBytes (clkOperand b3 b2 b1 b0) = [b3, b2, b1, b0] := by
  have value : (clkOperand b3 b2 b1 b0).getD 0 = ((b3.toNat * 256 + b2.toNat) * 256 + b1.toNat) * 256 + b0.toNat := by
    dsimp only [clkOperand]
    split <;> simp [*]
  have h3 := b3.isLt; have h2 := b2.isLt; have h1 := b1.isLt; have h0 := b0.isLt
  simp only [clkBytes, value, byteOf, List.cons.injEq, ← BitVec.toNat_inj, BitVec.toNat_ofNat, and_true]
  omega

theorem clkListable_clkOperand (b3 b2 b1 b0 : Byte) : clkListable (clkOperand b3 b2 b1 b0) = true := by
  have h3 := b3.isLt; have h2 := b2.isLt; have h1 := b1.isLt; have h0 := b0.isLt
  dsimp only [clkOperand]
  split
  · rfl
  · simp only [clkListable, Bool.and_eq_true, decide_eq_true_eq]
    omega

/-- An operand byte whose bit 1 is clear is the one of its fields. -/
theorem nibbleOperand_fields {b : Byte} (h : b.extractLsb' 1 1 = 0#1) :
    nibbleOperand (b.extractLsb' 4 4).toNat (b.extractLsb' 3 1).toNat (b.extractLsb' 2 1).toNat
      (b.extractLsb' 0 1).toNat = b := by
  revert b; decide

theorem splitAtZero_some {bs s rest : List Byte} (h : splitAtZero bs = some (s, rest)) :
    bs = s ++ 0#8 :: rest ∧ ∀ c ∈ s, c ≠ 0#8 := by
  induction bs generalizing s with
  | nil => simp [splitAtZero] at h
  | cons b bs ih =>
    unfold splitAtZero at h
    split at h
    · next hb =>
      obtain ⟨rfl, rfl⟩ : [] = s ∧ bs = rest := by simpa using h
      simp [hb]
    · next hb =>
      obtain ⟨⟨s', rest'⟩, hs, heq⟩ := Option.map_eq_some_iff.1 h
      obtain ⟨rfl, rfl⟩ : b :: s' = s ∧ rest' = rest := by simpa using heq
      obtain ⟨rfl, hz⟩ := ih hs
      exact ⟨rfl, List.forall_mem_cons.2 ⟨hb, hz⟩⟩

theorem encode_ofCode (c : Byte) : encode (.ofCode c) = [0x04, c] := by
  simp [encode, asRequest_ofCode, encodeRequest]

theorem listable_ofCode (c : Byte) : (Instr.ofCode c).listable = true := by
  unfold Instr.ofCode
  cases family c <;> rfl

section

variable {bs rest : List Byte}

/-! Each operand reader answers an instruction with a listing form, and the bytes it has read are the operand bytes. -/

theorem decodeInit_instr {mk : Nat → Option Nat → Instr} (h : decodeInit mk bs = .instr i rest) :
    ∃ (sel : Byte) (clk : Option Nat), i = mk sel.toNat clk ∧ clkListable clk = true ∧
      bs = sel :: clkBytes clk ++ rest := by
  unfold decodeInit at h
  split at h
  · next sel b3 b2 b1 b0 rest' =>
    obtain ⟨rfl, rfl⟩ := Decoded.instr.inj h
    exact ⟨sel, _, rfl, clkListable_clkOperand b3 b2 b1 b0, by rw [clkBytes_clkOperand]; rfl⟩
  · simp at h

theorem decodeWrite_instr (h : decodeWrite bs = .instr i rest) :
    ∃ (addr : Byte) (data : List Byte), i = .btWrite addr.toNat (data.map BitVec.toNat) ∧ data.length < 256 ∧
      bs = addr :: byteOf data.length :: data ++ rest := by
  unfold decodeWrite at h
  split at h
  · next addr n rest' =>
    split at h
    · next hn =>
      obtain ⟨rfl, rfl⟩ := Decoded.instr.inj h
      have hl : (rest'.take n.toNat).length = n.toNat := List.length_take_of_le hn
      exact ⟨addr, _, rfl, by rw [hl]; exact n.isLt, by simp [hl]⟩
    · simp at h
  · simp at h

theorem decodeNibble_instr (h : decodeNibble bs = .instr i rest) :
    ∃ nib rs rw bl, i = .ebNibble nib rs rw bl ∧ i.listable = true ∧ bs = nibbleOperand nib rs rw bl :: rest := by
  unfold decodeNibble at h
  split at h
  · next b rest' =>
    split at h
    · next hb =>
      obtain ⟨rfl, rfl⟩ := Decoded.instr.inj h
      refine ⟨_, _, _, _, rfl, ?_, by rw [nibbleOperand_fields hb]⟩
      simp only [Instr.listable, Bool.and_eq_true, decide_eq_true_eq]
      exact ⟨⟨⟨BitVec.isLt _, BitVec.isLt _⟩, BitVec.isLt _⟩, BitVec.isLt _⟩
    · simp at h
  · simp at h

theorem decodeByte_instr {mk : Byte → Instr} (h : decodeByte mk bs = .instr i rest) :
    ∃ b, i = mk b ∧ bs = b :: rest := by
  cases bs with
  | nil => simp [decodeByte] at h
  | cons b bs =>
    obtain ⟨rfl, rfl⟩ := Decoded.instr.inj h
    exact ⟨b, rfl, rfl⟩

theorem decodePuts_instr (h : decodePuts bs = .instr i rest) :
    ∃ s : List Byte, i = .lcPuts (s.map BitVec.toNat) ∧ (∀ c ∈ s, c ≠ 0#8) ∧ bs = s ++ 0#8 :: rest := by
  unfold decodePuts at h
  split at h
  · next s rest' hs =>
    obtain ⟨rfl, rfl⟩ := Decoded.instr.inj h
    obtain ⟨hbs, hz⟩ := splitAtZero_some hs
    exact ⟨s, rfl, hz, hbs⟩
  · simp at h

end

/-! The instructions the operand readers answer have a listing form. -/

theorem listable_btWrite (addr : Byte) {data : List Byte} (h : data.length < 256) :
    (Instr.btWrite addr.toNat (data.map BitVec.toNat)).listable = true := by
  simp only [Instr.listable, List.length_map, Bool.and_eq_true, decide_eq_true_eq, List.all_eq_true, List.forall_mem_map]
  exact ⟨⟨addr.isLt, h⟩, fun b _ => b.isLt⟩

theorem listable_lcPuts {s : List Byte} (h : ∀ c ∈ s, c ≠ 0#8) : (Instr.lcPuts (s.map BitVec.toNat)).listable = true := by
  simp only [Instr.listable, Bool.and_eq_true, decide_eq_true_eq, List.all_eq_true, List.forall_mem_map]
  exact fun c hc => ⟨Nat.pos_of_ne_zero fun h0 => h c hc (BitVec.eq_of_toNat_eq h0), c.isLt⟩

/-- A header that is not an operation's number is reserved (30_encoding.md R49, R50). -/
theorem header_cases (header : Byte) :
    header = 0 ∨ header = 1 ∨ header = 2 ∨ header = 3 ∨ header = 4 ∨ header = 5 ∨ header = 6 ∨ 7 ≤ header.toNat := by
  revert header; decide

theorem decode_reserved {header : Byte} (h : 7 ≤ header.toNat) (bs : List Byte) :
    decode (header :: bs) = .instr (.reserved header) bs :=
  decode_encode (.reserved header) (decide_eq_true h) bs

/-- Settles O11: by the header, and what the operand readers have read. -/
theorem encodeWritesWhatDecodeRead : Obligations.EncodeWritesWhatDecodeRead := by
  intro bytes rest i h
  rcases bytes with _ | ⟨header, bs⟩
  · simp [decode] at h
  rcases header_cases header with rfl | rfl | rfl | rfl | rfl | rfl | rfl | hr
  · obtain ⟨sel, clk, rfl, hclk, rfl⟩ := decodeInit_instr (mk := .btInit) h
    exact ⟨by simp [encode, Instr.asRequest, encodeRequest], by simp [Instr.listable, hclk, sel.isLt]⟩
  · obtain ⟨addr, data, rfl, hl, rfl⟩ := decodeWrite_instr h
    exact ⟨by simp [encode, Instr.asRequest, encodeRequest], listable_btWrite addr hl⟩
  · obtain ⟨nib, rs, rw, bl, rfl, hl, rfl⟩ := decodeNibble_instr h
    exact ⟨rfl, hl⟩
  · obtain ⟨sel, clk, rfl, hclk, rfl⟩ := decodeInit_instr (mk := .lcInit) h
    exact ⟨by simp [encode, Instr.asRequest, encodeRequest], by simp [Instr.listable, hclk, sel.isLt]⟩
  · obtain ⟨c, rfl, rfl⟩ := decodeByte_instr (mk := .ofCode) h
    exact ⟨by rw [encode_ofCode]; rfl, listable_ofCode c⟩
  · obtain ⟨c, rfl, rfl⟩ := decodeByte_instr (mk := fun b => .lcPutc b.toNat) h
    exact ⟨by simp [encode, Instr.asRequest, encodeRequest], by simp [Instr.listable, c.isLt]⟩
  · obtain ⟨s, rfl, hz, rfl⟩ := decodePuts_instr h
    exact ⟨by simp [encode, Instr.asRequest, encodeRequest], listable_lcPuts hz⟩
  · rw [decode_reserved hr] at h
    obtain ⟨rfl, rfl⟩ := Decoded.instr.inj h
    exact ⟨rfl, decide_eq_true hr⟩

/-- The decoder answers normal forms only: it reads back what it read. -/
theorem normal_of_decode {bytes rest : List Byte} (h : decode bytes = .instr i rest) : i.normal = i := by
  obtain ⟨hb, hl⟩ := encodeWritesWhatDecodeRead bytes rest i h
  have h' := decode_encode i hl rest
  rw [← hb, h] at h'
  exact (Decoded.instr.inj h').1.symm

/-! ### The host's table words (log entry 10) -/

/-- A table word's listing is the listing form of its instruction, with nothing after it. -/
theorem decode_tableListing {nbits w : Nat} (h : decodeTableWord nbits w = some i) :
    decode (tableListing nbits w) = .instr i [] := by
  unfold decodeTableWord at h
  split at h
  · next i' rest hd =>
    obtain rfl : i' = i := Option.some.inj h
    obtain ⟨hb, hl⟩ := encodeWritesWhatDecodeRead _ rest i' hd
    have ht : tableListing nbits w = encode i' := by
      simp only [tableListing, hd]
      rw [hb, List.length_append, Nat.add_sub_cancel, List.take_left]
    rw [ht, ← List.append_nil (encode i'), decode_encode i' hl, normal_of_decode hd]
  · simp at h

end Sys2Proof.Machine

/-! # Requests at an open port (30_encoding.md R50, R51, R68; 60_exceptions.md R130) -/

namespace Sys2Proof.Machine

open Sys2Proof Sys2Proof.Claim

variable {i : Instr} {s t : State}

/-- Settles O15: the word's listing decodes to the instruction and nothing else, and the step runs what it decodes to. -/
theorem fetchWordRunsTheTableInstruction : Obligations.FetchWordRunsTheTableInstruction := by
  intro s nbits w i ho hw
  have hd := decode_tableListing hw
  obtain ⟨-, hstep, -⟩ := stepRunsTheNextRequest (s.withFetchWord nbits w) ho
  rcases hl : tableListing nbits w with _ | ⟨b, bytes⟩
  · simp [hl, decode] at hd
  · rw [hl] at hd
    exact hstep b bytes s.inbox i [] (by rw [← hl]; rfl) hd

/-! ### Refusal -/

theorem step_of_malformed {b : Byte} {bytes : List Byte} {rest : List Input} {why : DecodeError} (ho : s.portOpen = true)
    (hi : s.inbox = .listing (b :: bytes) :: rest) (hd : decode (b :: bytes) = .rejected why) :
    step s = .next (withInbox rest s).marked := by
  simp [step, hi, nextOffer, hd, onPort_of_open ho, refuse, State.marked]

/-- The operand byte of EB_SEND_NIBBLE has no EN bit (30_encoding.md R68). -/
theorem decode_enBitSet {c : Byte} (h : c.getLsbD 1 = true) (more : List Byte) :
    decode (0x02 :: c :: more) = .rejected .enBitSet := by
  have hc : c.extractLsb' 1 1 ≠ 0#1 := by revert c; decide
  exact if_neg hc

/-- Settles O16: both listings are rejected by the decoder, and the port refuses what it rejects. -/
theorem malformedListingIsRefused : Obligations.MalformedListingIsRefused := by
  intro s b bytes rest ho hi
  constructor
  · rintro c more rfl rfl hc
    exact step_of_malformed ho hi (decode_enBitSet hc more)
  · exact fun why hd => step_of_malformed ho hi hd

/-- What the port's check lets pass is in range (the converse of `requestOk_of_not_outOfRange`). -/
theorem not_outOfRange_of_requestOk {p : Params} (hq : requestOk p i.asRequest = true) : ¬ outOfRange p.busIds i := by
  intro h
  unfold requestOk at hq
  cases i <;> simp only [outOfRange] at h <;>
    simp only [Instr.asRequest, Instr.wellFormed, Bool.and_eq_true, decide_eq_true_eq, List.all_eq_true] at hq
  case btInit sel clk | lcInit sel clk =>
    obtain ⟨hsel, hclk⟩ := hq
    rcases h with h | rfl
    · exact h (by simpa [BusIds.has] using hsel)
    · simp [clkInRange] at hclk
  case btWrite addr data =>
    obtain ⟨haddr, hdata⟩ := hq
    rcases h with h | ⟨b, hb, h⟩
    · omega
    · have := hdata b hb; omega
  case ebNibble nib rs rw bl => omega
  case lcCmd code => omega
  case lcPutc ch => omega
  case lcPuts text =>
    obtain ⟨c, hc, h⟩ := h
    have := hq c hc; omega
  case reserved header => simp at hq

theorem exec_of_outOfRange (ho : s.portOpen = true) (h : outOfRange s.params.busIds i) : exec i s = .next (refuse s) := by
  have hq : requestOk s.params i.asRequest = false :=
    Bool.eq_false_iff.2 fun hq => not_outOfRange_of_requestOk hq h
  simp [exec_of_open i ho, served, hq]

/-- A request that passes the port's check does not set the refusal mark. -/
theorem RequestEnd.refused_of_requestOk (h : RequestEnd i s t) (hq : requestOk s.params i.asRequest = true) :
    t.core.refused = s.core.refused := by
  cases h with
  | refused hq' => simp [hq] at hq'
  | gated | notReady | handleChanged | completed => rfl
  | busBusy | failed => exact failWith_refused _ _ _

/-- Settles O17: out of range is what the port's check refuses, and no other end of a request sets the mark. -/
theorem outOfRangeRequestIsRefused : Obligations.OutOfRangeRequestIsRefused := by
  intro i s ho
  obtain ⟨-, hh, hr, -⟩ := (portOpen_iff s).1 ho
  refine ⟨fun h => ⟨exec_of_outOfRange ho h, fun j => ?_⟩, fun h t hx => ?_⟩
  · exact exec_of_haltFault j (haltFault_of_refused hh rfl)
  · rw [(exec_end hx).2.refused_of_requestOk (requestOk_of_not_outOfRange h), hr]

/-- Settles O18: a reserved header is out of range, and a listing's reserved header decodes to that request. -/
theorem reservedHeaderIsRefused : Obligations.ReservedHeaderIsRefused := by
  intro header bytes rest s ho
  have refused : ∀ {u : State}, u.portOpen = true → exec (.reserved header) u = .next (refuse u) :=
    fun hu => exec_of_outOfRange (i := .reserved header) hu trivial
  refine ⟨refused ho, fun hr hi => ?_⟩
  obtain ⟨-, hstep, -⟩ := stepRunsTheNextRequest s ho
  exact ⟨_, (hstep _ _ _ _ _ hi (decode_reserved hr bytes)).trans (refused ho), rfl, rfl, rfl⟩

end Sys2Proof.Machine

/-! # Commands and characters on a clean bus (30_encoding.md R54, R62, R64; 42_lcd_controller.md R97, R103 to R106) -/

namespace Sys2Proof.Machine

open Sys2Proof Sys2Proof.Claim

/-! ### What clean requests show, in the claims' words -/

section

variable (p : Params)

theorem okTransaction_eq_transaction (addr : Addr7) (data : List Byte) :
    okTransaction addr data = transaction addr.toNat (data.map BitVec.toNat) := by
  have ha : addrByte addr = BitVec.ofNat 8 (addr.toNat * 2) := by
    rw [← addrByte_toNat, BitVec.ofNat_toNat, BitVec.setWidth_eq]
  simp [okTransaction, transaction, ha, Function.comp_def]

theorem flatMap_okXfer_eq_xfers (data : List Byte) : data.flatMap (okXfer p) = xfers p (data.map BitVec.toNat) := by
  rw [xfers, List.flatMap_map]
  exact List.flatMap_congr fun b _ => okTransaction_eq_transaction p.slaveAddr [b]

theorem expanderByte_toNat (nib : Nibble) (rs rw en bl : Bit) : (expanderByte nib rs rw en bl).toNat =
    nib.toNat * 16 + rs.toNat * 8 + rw.toNat * 4 + en.toNat * 2 + bl.toNat := by
  revert nib rs rw en bl; decide

theorem hiNibble_toNat (v : Byte) : (hiNibble v).toNat = v.toNat / 16 := by
  revert v; decide

theorem loNibble_toNat (v : Byte) : (loNibble v).toNat = v.toNat % 16 := by
  revert v; decide

theorem sentBytes_toNat (v : Byte) (rs bl : Bit) :
    (sentBytes v rs bl).map BitVec.toNat = logicalByte v.toNat rs.toNat bl.toNat := by
  simp [sentBytes, logicalByte, nibble, expanderByte_toNat, hiNibble_toNat, loNibble_toNat]

theorem okByte_eq_xfers (v : Byte) (rs bl : Bit) : okByte p v rs bl = xfers p (logicalByte v.toNat rs.toNat bl.toNat) := by
  rw [okByte, flatMap_okXfer_eq_xfers, sentBytes_toNat]

theorem okCommand_eq_command (c : Byte) : okCommand p c = command p c.toNat := by
  rw [okCommand, command, okByte_eq_xfers, delayClass_eq_delayOf]; rfl

theorem okChar_eq_character (c : Byte) : okChar p c = character p c.toNat := by
  rw [okChar, character, okByte_eq_xfers]; rfl

end

/-! ### Requests that run to their end -/

variable {i : Instr} {s : State} {code : Nat}

/-- A request without uBUSINIT on an initialised, clean bus ends with OK: `exec_clean` with the whole next state. -/
theorem exec_eq_ended (ho : s.portOpen = true) (hr : ¬ outOfRange s.params.busIds i)
    (hg : gate i s.core.lcState = none) (hv : s.core.btValid = true)
    (hp : ∀ op ∈ programOf s.params i, op.isPlain = true)
    (hc : s.clean (startsOf (programOf s.params i)) (acksOf (programOf s.params i)) = true) :
    exec i s = .next (s.ended ((programOf s.params i).flatMap (MicroOp.okEvents true))
      ((programOf s.params i).foldl MicroOp.lcAfter s.core.lcState)
      (s.env.after (startsOf (programOf s.params i)) (acksOf (programOf s.params i))) .ok) := by
  rw [exec_of_accepted ho (requestOk_of_not_outOfRange hr) hg,
    runProgram_clean i.asRequest _ (accept i.asRequest s) hp hv hc]
  rfl

theorem selectsMode8_iff (c : Byte) : selectsMode8 c = true ↔ c.toNat / 16 = 3 := by
  revert c; decide

/-- A command in READY on an initialised, clean bus. -/
theorem exec_command (h : commandCode i = some code) (hcode : code < 256) (ho : s.portOpen = true)
    (hl : s.core.lcState = .ready) (hv : s.core.btValid = true) (hc : s.clean 4 8 = true) :
    exec i s = .next
      (s.ended (command s.params code) (if code / 16 = 3 then .mode8 else .ready) (s.env.after 4 8) .ok) := by
  have hreq := asRequest_of_commandCode h
  have hprog := programOf_of_lcCmd s.params hreq
  have hb : (BitVec.ofNat 8 code).toNat = code := by simpa using hcode
  have hr : ¬ outOfRange s.params.busIds i := not_outOfRange_of_requestOk (by simpa [hreq, requestOk, Instr.wellFormed])
  have hx := exec_eq_ended ho hr (by simp [gate, hreq, gateLcd, hl]) hv
    (by rw [hprog]; exact lcCmdProgram_plain _ _)
    (by rw [hprog, startsOf_lcCmdProgram, acksOf_lcCmdProgram]; exact hc)
  simpa only [hprog, startsOf_lcCmdProgram, acksOf_lcCmdProgram, lcCmdProgram_events, lcCmdProgram_lcAfter,
    okCommand_eq_command, selectsMode8_iff, hb, hl] using hx

/-- Settles O36: a family or a pseudo-instruction is a command whose code its fields spell. -/
theorem familiesAreSentAsTheirCodes : Obligations.FamiliesAreSentAsTheirCodes :=
  fun _ _ _ h => exec_command (commandCode_of_familyCode h) (familyCode_lt h)

/-- A character in READY on an initialised, clean bus, 0x00 too. -/
theorem exec_lcPutc {ch : Nat} (hch : ch < 256) (ho : s.portOpen = true) (hl : s.core.lcState = .ready)
    (hv : s.core.btValid = true) (hc : s.clean 4 8 = true) :
    exec (.lcPutc ch) s = .next (s.ended (character s.params ch) .ready (s.env.after 4 8) .ok) := by
  have hb : (BitVec.ofNat 8 ch).toNat = ch := by simpa using hch
  have hx := exec_eq_ended (i := .lcPutc ch) ho (not_lt.2 (Nat.le_of_lt_succ hch)) (by rw [hl]; rfl) hv
    (putcProgram_plain s.params _) hc
  rw [hx]
  simp only [programOf, Instr.asRequest, putcProgram_events, putcProgram_lcAfter, okChar_eq_character, hb, hl]
  rfl

/-- The characters of a text before its first 0x00 (30_encoding.md R64). -/
theorem sentChars_eq {chars after text : List Nat} (hz : ∀ c ∈ chars, 0 < c)
    (ht : text = chars ∨ text = chars ++ 0 :: after) : sentChars text = chars.map (BitVec.ofNat 8) := by
  have hne : ∀ c ∈ chars, (c != 0) = true := fun c hc => by simpa using (hz c hc).ne'
  rcases ht with rfl | rfl
  · rw [sentChars, List.takeWhile_eq_self_iff.2 hne]
  · rw [sentChars, List.takeWhile_append_of_pos hne]; simp

theorem flatMap_okChar_eq (p : Params) {chars : List Nat} (h : ∀ c ∈ chars, c < 256) :
    (chars.map (BitVec.ofNat 8)).flatMap (okChar p) = chars.flatMap (character p) := by
  rw [List.flatMap_map]
  refine List.flatMap_congr fun c hc => ?_
  rw [okChar_eq_character, BitVec.toNat_ofNat, Nat.mod_eq_of_lt (h c hc)]

/-- A string in READY on an initialised, clean bus sends its characters before the first 0x00. -/
theorem exec_lcPuts {chars after text : List Nat} (ho : s.portOpen = true) (hchars : ∀ c ∈ chars, 0 < c ∧ c < 256)
    (hafter : ∀ c ∈ after, c < 256) (hl : s.core.lcState = .ready) (hv : s.core.btValid = true)
    (hc : s.clean (4 * chars.length) (8 * chars.length) = true) (ht : text = chars ∨ text = chars ++ 0 :: after) :
    exec (.lcPuts text) s = .next
      (s.ended (chars.flatMap (character s.params)) .ready (s.env.after (4 * chars.length) (8 * chars.length)) .ok) := by
  have hprog : programOf s.params (.lcPuts text) = (chars.map (BitVec.ofNat 8)).flatMap (putcProgram s.params) := by
    rw [← sentChars_eq (fun c hc => (hchars c hc).1) ht]; rfl
  have hr : ¬ outOfRange s.params.busIds (.lcPuts text) := by
    rintro ⟨c, hmem, hbig⟩
    rcases ht with rfl | rfl
    · have := hchars c hmem; omega
    · rcases List.mem_append.1 hmem with hmem | hmem
      · have := hchars c hmem; omega
      · rcases List.mem_cons.1 hmem with rfl | hmem
        · omega
        · have := hafter c hmem; omega
  have hx := exec_eq_ended ho hr (by simp [gate, Instr.asRequest, gateLcd, hl]) hv (putsProgram_plain s.params text)
    (by rw [hprog, startsOf_putcPrograms, acksOf_putcPrograms, List.length_map]; exact hc)
  have hlc : (programOf s.params (.lcPuts text)).foldl MicroOp.lcAfter .ready = .ready := putsProgram_lcAfter _ _ _
  rw [hx, hl, hlc, hprog, putcPrograms_events, flatMap_okChar_eq _ fun c hc => (hchars c hc).2, startsOf_putcPrograms,
    acksOf_putcPrograms, List.length_map]

/-- Settles O38: a string's micro-program is that of the characters before its first 0x00; LC_PUTC's is of any character. -/
theorem stringIsSentUpToItsZero : Obligations.StringIsSentUpToItsZero := by
  intro s chars after ho hchars hafter hl hv hc text ht
  exact ⟨exec_lcPuts ho hchars hafter hl hv hc ht, exec_lcPutc (by decide) ho hl hv⟩

end Sys2Proof.Machine

/-! # BT_INIT and the bus handle (40_bus_transport.md R69, R71, R72) -/

namespace Sys2Proof.Machine

open Sys2Proof Sys2Proof.Claim

variable {s : State} {sel : Nat}

/-! ### A micro-program that begins with uBUSINIT -/

section

variable {rate : Nat} (q : Instr) (rest : List MicroOp)

/-- A bus initialised with this handle is left as it is. -/
theorem runProgram_busInit_same (hv : s.core.btValid = true) (h : sel = s.core.btSel ∧ rate = s.core.btClk) :
    runProgram q (.busInit sel rate :: rest) s = runProgram q rest (advance s) := by
  simp [runProgram, runOp, uBusInit, hv, h]

/-- A bus initialised with another handle faults. -/
theorem runProgram_busInit_changed (hv : s.core.btValid = true) (h : ¬ (sel = s.core.btSel ∧ rate = s.core.btClk)) :
    runProgram q (.busInit sel rate :: rest) s = raiseFault .handleChanged q s := by
  simp [runProgram, runOp, uBusInit, hv, h]

theorem runProgram_busInit_idle (hv : s.core.btValid = false) (hi : idleAnswer s = .idle) :
    runProgram q (.busInit sel rate :: rest) s =
      runProgram q rest (advance (emit (.busInit sel rate) (setHandle sel rate (askedIdle s)))) := by
  simp only [runProgram, runOp, uBusInit_idle sel rate hv hi]

theorem runProgram_busInit_busy (hv : s.core.btValid = false) (hi : idleAnswer s = .busy) :
    runProgram q (.busInit sel rate :: rest) s = failWith .busBusy q (askedIdle s) := by
  simp only [runProgram, runOp, uBusInit_busy sel rate hv hi]

end

/-! ### BT_INIT and LC_INIT -/

variable {clk : Option Nat}

/-- A BT_INIT in range, which has no gate, is its uBUSINIT. -/
theorem exec_btInit (ho : s.portOpen = true) (hr : ¬ outOfRange s.params.busIds (.btInit sel clk)) :
    exec (.btInit sel clk) s = .next
      (runProgram (.btInit sel clk) [.busInit sel (clk.getD s.params.clkDefault)] (accept (.btInit sel clk) s)) :=
  exec_of_accepted ho (requestOk_of_not_outOfRange hr) rfl

/-- An LC_INIT in range that its gate lets pass begins with uBUSINIT. -/
theorem exec_lcInit (ho : s.portOpen = true) (hr : ¬ outOfRange s.params.busIds (.lcInit sel clk))
    (hl : s.core.lcState ≠ .failed) :
    exec (.lcInit sel clk) s = .next (runProgram (.lcInit sel clk)
      (.busInit sel (clk.getD s.params.clkDefault) :: (initSequence s.params ++ [.setLc .ready]))
      (accept (.lcInit sel clk) s)) := by
  have hg : gate (.lcInit sel clk) s.core.lcState = none := by
    rcases hlc : s.core.lcState with _ | _ | _ | _
    case failed => exact absurd hlc hl
    all_goals rfl
  exact exec_of_accepted ho (requestOk_of_not_outOfRange hr) hg

/-- Settles O19: uBUSINIT on an idle bus writes the handle, and the request ends with OK. -/
theorem busInitWritesTheHandle : Obligations.BusInitWritesTheHandle := by
  intro s sel clk ho hr hv hi
  rw [exec_btInit ho hr, runProgram_busInit_idle _ _ (s := accept _ s) hv hi]
  simp [runProgram, finish, CoreState.idleSeq, skip_succ, ((portOpen_iff s).1 ho).1]

/-- Settles O20: uBUSINIT leaves a bus with the same handle as it is, and the request ends with OK. -/
theorem busInitAgainIsIdempotent : Obligations.BusInitAgainIsIdempotent := by
  intro s clk ho hr hv hclk
  rw [exec_btInit ho hr, runProgram_busInit_same (s := accept _ s) (sel := s.core.btSel) _ _ hv ⟨rfl, hclk⟩]
  simp [runProgram, finish, State.ended, CoreState.idleSeq]

/-- Settles O21: both requests begin with uBUSINIT, which faults on another handle. -/
theorem changedHandleFaults : Obligations.ChangedHandleFaults := by
  intro s sel clk ho hr hv hne
  constructor
  · rw [exec_btInit ho hr, runProgram_busInit_changed (s := accept _ s) _ _ hv hne, raiseFault_of_open ho]
  · intro hl
    rw [exec_lcInit ho hr hl, runProgram_busInit_changed (s := accept _ s) _ _ hv hne, raiseFault_of_open ho]

/-- Settles O22: uBUSINIT on a busy bus asks and fails, and RETURN ends the request with its result. -/
theorem busyBusIsReported : Obligations.BusyBusIsReported := by
  intro s sel clk ho hr hm hv hi
  rw [exec_btInit ho hr, runProgram_busInit_busy (s := accept _ s) _ _ hv hi]
  simp [failWith, hm, isLcInit, Instr.asRequest, finish, State.ended, CoreState.idleSeq, skip_succ]

end Sys2Proof.Machine

/-! # BT_WRITE (40_bus_transport.md R73 to R79) -/

namespace Sys2Proof.Machine

open Sys2Proof Sys2Proof.Claim

/-! ### How a byte that is not acknowledged ends its transaction (R76, R77) -/

/-- STOP after NACK, ABORT after STALL. -/
def endEvent : Ack → Event
  | .stall => .abort
  | _ => .stop

/-- The result of an address byte answered NACK or STALL. -/
def addrResult : Ack → Result
  | .stall => .timeout .addr
  | _ => .nackAddr

/-- The result of data byte k answered NACK or STALL. -/
def dataResult (k : Nat) : Ack → Result
  | .stall => .timeout (.data k)
  | _ => .nackData k

/-! ### The phases of uWRITE -/

/-- START has been emitted and answered. -/
def started (s : State) : State := askedStart (emit .start (setPhase .start s))

/-- A byte has been sent in its phase. -/
def sent (b : Byte) (ph : BusPhase) (s : State) : State := putByte b (setPhase ph s)

section

variable {s : State} (addr : Addr7) (k : Nat) (b : Byte) (data : List Byte)

@[simp] theorem started_env (s : State) : (started s).env = s.env.after 1 0 := rfl

@[simp] theorem sent_env (ph : BusPhase) (s : State) : (sent b ph s).env = s.env.after 0 1 := rfl

theorem ran_started (s : State) : Ran s (started s) [.start] :=
  (ran_setPhase .start s).trans ((ran_emit .start _).trans (ran_askedStart _))

theorem ran_sent (ph : BusPhase) (s : State) : Ran s (sent b ph s) [.byte b (ackAnswer s)] := ran_putByte b ph s

theorem uWrite_of_start (hv : s.core.btValid = true) (hst : startAnswer s = .ok) :
    uWrite addr data s = sendAddr addr data (started s) := by
  simp [uWrite, hv, hst, started]

theorem uWrite_of_startStall (hv : s.core.btValid = true) (hst : startAnswer s = .stall) :
    uWrite addr data s = (.fail (.timeout .start), emit .abort (started s)) := by
  simp [uWrite, hv, hst, started]

theorem sendAddr_of_ack (ha : ackAnswer s = .ack) :
    sendAddr addr data s = sendData 0 data (sent (addrByte addr) .addr s) := by
  simp [sendAddr, ha, sent]

theorem sendAddr_of_not_ack {a : Ack} (ha : ackAnswer s = a) (hne : a ≠ .ack) :
    sendAddr addr data s = (.fail (addrResult a), emit (endEvent a) (sent (addrByte addr) .addr s)) := by
  cases a with
  | ack => exact absurd rfl hne
  | nack | stall => simp [sendAddr, ha, sent, addrResult, endEvent]

theorem sendData_of_ack (ha : ackAnswer s = .ack) :
    sendData k (b :: data) s = sendData (k + 1) data (sent b (.data k) s) := by
  simp [sendData, ha, sent]

theorem sendData_of_not_ack {a : Ack} (ha : ackAnswer s = a) (hne : a ≠ .ack) :
    sendData k (b :: data) s = (.fail (dataResult k a), emit (endEvent a) (sent b (.data k) s)) := by
  cases a with
  | ack => exact absurd rfl hne
  | nack | stall => simp [sendData, ha, sent, dataResult, endEvent]

end

/-! ### A transaction whose first bytes are acknowledged -/

variable {s t : State}

theorem startAnswer_of_clean {n : Nat} (h : s.clean 1 n = true) : startAnswer s = .ok := by
  simp only [State.clean, firstAre_succ, Bool.and_eq_true] at h
  exact h.1.1

theorem ackAnswer_of_clean {m n : Nat} (h : s.clean m (n + 1) = true) : ackAnswer s = .ack := by
  simp only [State.clean, firstAre_succ, Bool.and_eq_true] at h
  exact h.2.1

/-- After data bytes that are acknowledged the rest of the transaction follows. -/
theorem sendData_append (pre post : List Byte) (k : Nat) (hc : s.clean 0 pre.length = true) :
    ∃ t, sendData k (pre ++ post) s = sendData (k + pre.length) post t ∧
      Ran s t (pre.map (fun b => .byte b .ack)) ∧ t.env = s.env.after 0 pre.length := by
  induction pre generalizing s k with
  | nil => exact ⟨s, rfl, by constructor <;> simp, rfl⟩
  | cons b pre ih =>
    have ha := ackAnswer_of_clean hc
    rw [List.length_cons, Nat.add_comm pre.length 1] at hc ⊢
    have hpre := ((clean_add s (sent b (.data k) s) 0 1 0 pre.length rfl).1 hc).2
    obtain ⟨t, h, hr, he⟩ := ih (k + 1) hpre
    refine ⟨t, ?_, ?_, ?_⟩
    · rw [List.cons_append, sendData_of_ack _ _ _ ha, h, Nat.add_assoc]
    · simpa [ha] using (ran_sent b (.data k) s).trans hr
    · rw [he, sent_env, Env.after_after]

/-- After an address byte and data bytes that are acknowledged the rest of the transaction follows. -/
theorem uWrite_append (addr : Addr7) (pre post : List Byte) (hv : s.core.btValid = true)
    (hc : s.clean 1 (pre.length + 1) = true) :
    ∃ t, uWrite addr (pre ++ post) s = sendData pre.length post t ∧
      Ran s t (.start :: .byte (addrByte addr) .ack :: pre.map (fun b => .byte b .ack)) ∧
      t.env = s.env.after 1 (pre.length + 1) := by
  have hst := startAnswer_of_clean hc
  have ha : ackAnswer (started s) = .ack := ackAnswer_of_clean (s := s) hc
  rw [Nat.add_comm pre.length 1] at hc ⊢
  have hpre := ((clean_add s (sent (addrByte addr) .addr (started s)) 1 1 0 pre.length rfl).1 hc).2
  obtain ⟨t, h, hr, he⟩ := sendData_append pre post 0 hpre
  refine ⟨t, ?_, ?_, ?_⟩
  · rw [uWrite_of_start _ _ hv hst, sendAddr_of_ack _ _ ha, h, Nat.zero_add]
  · simpa [ha] using (ran_started s).trans ((ran_sent (addrByte addr) .addr (started s)).trans hr)
  · simp [he, Env.after_after]

/-! ### The request -/

/-- The address byte is `addr * 2` (20_memory.md R32). -/
theorem addrByte_ofNat (addr : Nat) : addrByte (BitVec.ofNat 7 addr) = BitVec.ofNat 8 (addr * 2) := by
  refine BitVec.eq_of_toNat_eq ?_
  rw [addrByte_toNat, BitVec.toNat_ofNat, BitVec.toNat_ofNat]
  omega

/-- A request whose operations so far have left `lc_state` and the marks alone ends with a result. -/
theorem Ran.finish {evs : List Event} (h : Ran s t evs) (r : Result) :
    finish r t = s.ended evs s.core.lcState t.env r := by
  obtain ⟨core, params, env, inbox, results⟩ := t
  obtain ⟨hcore, hparams, hinbox, hresults, -⟩ := h
  simp only at hcore hparams hinbox hresults
  subst hparams hinbox hresults
  rw [Machine.finish, State.ended, hcore]
  rfl

section

variable {addr : Nat} {data : List Nat} (ho : s.portOpen = true) (hr : ¬ outOfRange s.params.busIds (.btWrite addr data))

include ho hr

/-- BT_WRITE, which has no gate, is its uWRITE. -/
theorem exec_btWrite : exec (.btWrite addr data) s = .next (runProgram (.btWrite addr data)
    [.write (BitVec.ofNat 7 addr) (data.map (BitVec.ofNat 8))] (accept (.btWrite addr data) s)) :=
  exec_of_accepted ho (requestOk_of_not_outOfRange hr) rfl

theorem exec_btWrite_clean (hv : s.core.btValid = true) (hc : s.clean 1 (data.length + 1) = true) :
    exec (.btWrite addr data) s =
      .next (s.ended (transaction addr data) s.core.lcState (s.env.after 1 (data.length + 1)) .ok) := by
  have hw := uWrite_clean (BitVec.ofNat 7 addr) (data.map (BitVec.ofNat 8)) (accept (.btWrite addr data) s) hv
    (by simpa using hc)
  rw [exec_btWrite ho hr]
  simp [runProgram, runOp, hw, finish, State.ended, CoreState.idleSeq, okTransaction, transaction, addrByte_ofNat,
    Function.comp_def]

/-- With RETURN a uWRITE that fails ends the request with its result. -/
theorem exec_btWrite_fail (hm : s.params.errorMode = .ret) {evs : List Event} {r : Result}
    (hw : uWrite (BitVec.ofNat 7 addr) (data.map (BitVec.ofNat 8)) (accept (.btWrite addr data) s) = (.fail r, t))
    (hran : Ran (accept (.btWrite addr data) s) t evs) :
    exec (.btWrite addr data) s = .next (s.ended evs s.core.lcState t.env r) := by
  have hmt : t.params.errorMode = .ret := by rw [hran.params]; exact hm
  have hf : failWith r (.btWrite addr data) t = finish r t := by simp [failWith, hmt, isLcInit, Instr.asRequest]
  rw [exec_btWrite ho hr]
  simp only [runProgram, runOp, hw]
  rw [hf, hran.finish, ended_accept]
  rfl

/-- The address byte is not acknowledged. -/
theorem exec_btWrite_addrFail (hm : s.params.errorMode = .ret) (hv : s.core.btValid = true)
    (hst : startAnswer s = .ok) {a : Ack} (ha : ackAnswer s = a) (hne : a ≠ .ack) :
    exec (.btWrite addr data) s =
      .next (s.ended [.start, .byte (BitVec.ofNat 8 (addr * 2)) a, endEvent a] s.core.lcState (s.env.after 1 1)
        (addrResult a)) := by
  rw [← addrByte_ofNat, ← ha]
  rw [← ha] at hne
  exact exec_btWrite_fail ho hr hm
    ((uWrite_of_start (s := accept _ s) _ _ hv hst).trans (sendAddr_of_not_ack _ _ (s := started (accept _ s)) rfl hne))
    ((ran_started _).trans ((ran_sent _ .addr _).trans (ran_emit _ _)))

end

/-- A data byte is not acknowledged, after bytes that are. -/
theorem exec_btWrite_dataFail {addr b : Nat} {pre post : List Nat} (ho : s.portOpen = true)
    (hr : ¬ outOfRange s.params.busIds (.btWrite addr (pre ++ b :: post)))
    (hm : s.params.errorMode = .ret) (hv : s.core.btValid = true) (hc : s.clean 1 (pre.length + 1) = true) {a : Ack}
    (ha : (s.env.ack.skip (pre.length + 1)).head Config.freeAck = a) (hne : a ≠ .ack) :
    exec (.btWrite addr (pre ++ b :: post)) s =
      .next (s.ended ([.start, .byte (BitVec.ofNat 8 (addr * 2)) .ack] ++ pre.map (fun b => .byte (BitVec.ofNat 8 b) .ack) ++
        [.byte (BitVec.ofNat 8 b) a, endEvent a]) s.core.lcState (s.env.after 1 (pre.length + 2))
        (dataResult pre.length a)) := by
  obtain ⟨t, hw, hran, he⟩ := uWrite_append (s := accept (.btWrite addr (pre ++ b :: post)) s) (BitVec.ofNat 7 addr)
    (pre.map (BitVec.ofNat 8)) ((b :: post).map (BitVec.ofNat 8)) hv (by simpa using hc)
  rw [← List.map_append, List.map_cons, List.length_map] at hw
  rw [List.length_map] at he
  have ht : ackAnswer t = a := by rw [← ha, ackAnswer, he]; rfl
  have hx := exec_btWrite_fail ho hr hm (hw.trans (sendData_of_not_ack _ _ _ ht hne))
    (hran.trans ((ran_sent _ (.data pre.length) t).trans (ran_emit _ _)))
  rw [hx, emit_env, sent_env, he, accept_env, Env.after_after, ht]
  simp [addrByte_ofNat, Function.comp_def]

/-- Settles O23: uWRITE on a clean bus shows its whole transaction. -/
theorem busWriteSendsItsBytes : Obligations.BusWriteSendsItsBytes :=
  fun _ _ _ ho hr hv hc => exec_btWrite_clean ho hr hv hc

/-- A failure result is not OK. -/
theorem not_returned_ok_failWith {r : Result} {q : Instr} (hres : t.results = s.results) (hne : r ≠ .ok) :
    ¬ returned s (failWith r q t) .ok := by
  rcases failWith_results r q t with h | h
  · simp [returned, h, hres]
  · simpa [returned, show (failWith r q t).results = t.results ++ [r] from h, hres] using hne

/-- A request returns OK only on a bus that has answered its whole micro-program well. -/
theorem RequestEnd.clean_of_returned_ok {i : Instr} (h : RequestEnd i s t) (hok : returned s t .ok) :
    s.clean (startsOf (programOf s.params i)) (acksOf (programOf s.params i)) = true := by
  cases h with
  | refused | gated | notReady | handleChanged => simp [returned, State.marked, State.faulted] at hok
  | busBusy => exact absurd hok (not_returned_ok_failWith rfl nofun)
  | completed _ _ _ _ _ _ _ hc => exact hc
  | failed _ _ _ _ _ _ _ _ _ _ _ _ _ _ _ _ hf => exact absurd hok (not_returned_ok_failWith rfl hf.ne_ok)

/-- Settles O24: on a clean bus it is `exec_btWrite_clean`, and no other end of the request returns OK. -/
theorem busWriteSucceedsIffAcknowledged : Obligations.BusWriteSucceedsIffAcknowledged := by
  intro s t addr data hr hv hx
  obtain ⟨ho, hend⟩ := exec_end hx
  have clean_of_ok : returned s t .ok → s.clean 1 (data.length + 1) = true := fun hok => by
    simpa [programOf, Instr.asRequest, btWriteProgram, startsOf, acksOf, MicroOp.starts, MicroOp.acks] using
      hend.clean_of_returned_ok hok
  have ended_of_clean : s.clean 1 (data.length + 1) = true →
      t = s.ended (transaction addr data) s.core.lcState (s.env.after 1 (data.length + 1)) .ok := fun hc => by
    simpa [hx] using exec_btWrite_clean ho hr hv hc
  refine ⟨⟨clean_of_ok, fun hc => ?_⟩, fun hok => ?_⟩
  · rw [ended_of_clean hc]; rfl
  · rw [ended_of_clean (clean_of_ok hok)]; rfl

/-- Settles O25: a byte answered NACK is not acknowledged. -/
theorem busWriteStopsAtNack : Obligations.BusWriteStopsAtNack := by
  intro s addr data ho hr hm hv hst
  constructor
  · intro ha
    exact exec_btWrite_addrFail ho hr hm hv (startAnswer_of_clean hst) ha nofun
  · rintro pre b post rfl hc ha
    exact exec_btWrite_dataFail ho hr hm hv hc ha nofun

/-- Settles O26: a START answered STALL fails at once, and a byte answered STALL is not acknowledged. -/
theorem busWriteAbortsAtStall : Obligations.BusWriteAbortsAtStall := by
  intro s addr data ho hr hm hv
  refine ⟨?_, ?_, ?_⟩
  · intro hst
    exact exec_btWrite_fail ho hr hm (uWrite_of_startStall (s := accept _ s) _ _ hv hst)
      ((ran_started _).trans (ran_emit .abort _))
  · intro hst ha
    exact exec_btWrite_addrFail ho hr hm hv (startAnswer_of_clean hst) ha nofun
  · rintro pre b post rfl hc ha
    exact exec_btWrite_dataFail ho hr hm hv hc ha nofun

/-! ### A bus that is not initialised -/

/-- The first write of a micro-program faults (60_exceptions.md R128). -/
theorem runProgram_write_notReady (q : Instr) (addr : Addr7) (data : List Byte) (rest : List MicroOp)
    (hv : s.core.btValid = false) : runProgram q (.write addr data :: rest) s = raiseFault .notReady q s := by
  simp [runProgram, runOp, uWrite, hv]

/-- Settles O27: both requests have no gate and begin with a uWRITE, which faults. -/
theorem busWriteBeforeInitFaults : Obligations.BusWriteBeforeInitFaults := by
  intro i s hi ho hr hv
  have faults : gate i s.core.lcState = none →
      (∃ addr data rest, programOf s.params i = .write addr data :: rest) →
      exec i s = .next (s.faulted .notReady i.asRequest) := by
    rintro hg ⟨addr, data, rest, hp⟩
    rw [exec_of_accepted ho (requestOk_of_not_outOfRange hr) hg, hp,
      runProgram_write_notReady (s := accept _ s) _ _ _ _ hv, raiseFault_of_open ho]
  cases i <;> simp only [isBusWrite, Bool.false_eq_true] at hi
  case btWrite addr data => exact faults rfl ⟨_, _, _, rfl⟩
  case ebNibble nib rs rw bl => exact faults rfl ⟨_, _, _, rfl⟩

end Sys2Proof.Machine

/-! # What no request reads (40_bus_transport.md R75, R77, R82; 70_reset_and_hazards.md R160) -/

namespace Sys2Proof.Machine

open Sys2Proof Sys2Proof.Claim

variable {f : State → State} {i : Instr} {s t : State}

/-! ### One update, all operations -/

theorem Unread.uBusInit (h : Unread f) (sel clk : Nat) (hsel : ∀ s, (f s).core.btSel = s.core.btSel)
    (hclk : ∀ s, (f s).core.btClk = s.core.btClk) (hasked : ∀ s, askedIdle (f s) = f (askedIdle s))
    (hset : ∀ s, setHandle sel clk (f s) = f (setHandle sel clk s)) (s : State) :
    uBusInit sel clk (f s) = ((uBusInit sel clk s).1, f (uBusInit sel clk s).2) := by
  have hi : idleAnswer (f s) = idleAnswer s := by simp [idleAnswer, h.env]
  simp only [Machine.uBusInit, h.valid, hsel, hclk, hi, hasked, hset, h.emit]
  rcases s.core.btValid with _ | _
  · rcases idleAnswer s with _ | _ <;> rfl
  · by_cases hs : sel = s.core.btSel ∧ clk = s.core.btClk <;> simp [hs]

/-- A micro-operation passes over an update that its kind does not read. -/
theorem Unread.runOp (h : Unread f) (op : MicroOp)
    (hbus : ∀ sel clk, op = .busInit sel clk → ∀ s,
      Machine.uBusInit sel clk (f s) = ((Machine.uBusInit sel clk s).1, f (Machine.uBusInit sel clk s).2))
    (hlc : ∀ st, op = .setLc st → ∀ s, setLc st (f s) = f (setLc st s)) (s : State) :
    runOp op (f s) = ((runOp op s).1, f (runOp op s).2) := by
  cases op with
  | busInit sel clk => exact hbus sel clk rfl s
  | write addr data => exact h.uWrite addr data s
  | delay cls => exact congrArg (Prod.mk _) (h.emit _ s)
  | setLc st => exact congrArg (Prod.mk _) (hlc st rfl s)

/-- The update `f` touches nothing that the beginning or the end of any request reads or writes, but for `lc_state`. -/
structure Passive (f : State → State) : Prop extends Unread f where
  portOpen : ∀ s, (f s).portOpen = s.portOpen
  busIds : ∀ s, (f s).params.busIds = s.params.busIds
  errorMode : ∀ s, (f s).params.errorMode = s.params.errorMode
  accept : ∀ q s, accept q (f s) = f (accept q s)
  advance : ∀ s, advance (f s) = f (advance s)
  finish : ∀ r s, finish r (f s) = f (finish r s)
  raiseFault : ∀ fk q s, raiseFault fk q (f s) = f (raiseFault fk q s)
  refuse : ∀ s, refuse (f s) = f (refuse s)
  hang : ∀ s, { f s with core := { (f s).core with hung := true } } = f { s with core := { s.core with hung := true } }

theorem Passive.failWith (h : Passive f) (r : Result) (q : Instr)
    (hfailed : isLcInit q = true → ∀ s, setLc .failed (f s) = f (setLc .failed s)) (s : State) :
    failWith r q (f s) = f (failWith r q s) := by
  rcases failWith_cases r q s with ⟨hm, hw⟩ | ⟨hm, hw⟩ <;> rw [hw]
  · simp only [Machine.failWith, h.errorMode, hm]
    exact h.hang s
  · simp only [Machine.failWith, h.errorMode, hm]
    rcases hq : isLcInit q
    · exact h.finish r s
    · simp only [if_true, hfailed hq, h.finish]

/-- A request passes over an update that none of its micro-operations reads and that leaves its micro-program and its gate as
they are. -/
theorem Passive.exec (h : Passive f) (hprog : ∀ s, programOf (f s).params i = programOf s.params i)
    (hgate : ∀ s, gate i (f s).core.lcState = gate i s.core.lcState)
    (hfailed : isLcInit i = true → ∀ s, setLc .failed (f s) = f (setLc .failed s))
    (hop : ∀ p, ∀ op ∈ programOf p i, ∀ s, runOp op (f s) = ((runOp op s).1, f (runOp op s).2))
    (hx : exec i s = .next t) : exec i (f s) = .next (f t) := by
  obtain ⟨ho, rfl⟩ := (exec_next_iff i s t).1 hx
  refine (exec_next_iff i _ _).2 ⟨(h.portOpen s).trans ho, ?_⟩
  have hrun : ∀ s', runProgram i.asRequest (programOf s.params i) (f s') =
      f (runProgram i.asRequest (programOf s.params i) s') :=
    runProgram_commute _ _ (hop s.params) h.advance h.finish
      (fun r => h.failWith r _ (by simpa using hfailed)) (fun fk => h.raiseFault fk _)
  simp only [served, requestOk, h.busIds, gate_asRequest, hgate, hprog, h.accept]
  rcases i.asRequest.wellFormed s.params.busIds
  · exact (h.refuse s).symm
  · rcases gate i s.core.lcState with _ | fk
    · exact (hrun _).symm
    · exact (h.raiseFault fk _ _).symm

/-! ### The clock rate of the handle -/

theorem passive_withClk (c : Nat) : Passive (withClk c) := by
  constructor
  case toUnread => constructor <;> intros <;> rfl
  all_goals intros; rfl

theorem busArgs_of_not_isInit (p : Params) (h : isInit i = false) : busArgs p i = none := by
  cases i
  case btInit sel clk | lcInit sel clk => simp [isInit] at h
  all_goals rfl

/-- Settles O52: only uBUSINIT reads the clock rate, and only the two inits have one. -/
theorem clockRateHasNoEffect : Obligations.ClockRateHasNoEffect := by
  intro i s t c hi hx
  refine (passive_withClk c).exec (fun _ => rfl) (fun _ => rfl) (fun _ _ => rfl) (fun p op hop => ?_) hx
  have hplain := (programOf_noInit p i (busArgs_of_not_isInit p hi)).1 op hop
  refine (passive_withClk c).runOp op (fun sel clk h => ?_) (fun _ _ _ => rfl)
  simp [h, MicroOp.isPlain] at hplain

/-! ### The timing parameters -/

theorem passive_withTimes (short long poweron init1 init2 wait : Nat) :
    Passive (withTimes short long poweron init1 init2 wait) := by
  constructor
  case toUnread => constructor <;> intros <;> rfl
  all_goals intros; rfl

/-- Settles O53: no operation and no micro-program reads the timing parameters. -/
theorem timingParametersAreNeverRead : Obligations.TimingParametersAreNeverRead := by
  intro i s t short long poweron init1 init2 wait hx
  have h := passive_withTimes short long poweron init1 init2 wait
  refine h.exec (fun _ => rfl) (fun _ => rfl) (fun _ _ => rfl) (fun p op _ => ?_) hx
  exact h.runOp op (fun sel clk _ => h.uBusInit sel clk (fun _ => rfl) (fun _ => rfl) (fun _ => rfl) (fun _ => rfl))
    (fun _ _ _ => rfl)

/-! ### `lc_state` -/

theorem passive_withLc (st : LcState) : Passive (withLc st) := by
  constructor
  case toUnread => exact unread_lcState st
  all_goals intros; rfl

theorem sendNibble_keepsLc (p : Params) (nib : Nibble) (rs rw bl : Bit) :
    ∀ op ∈ sendNibble p nib rs rw bl, op.keepsLc = true := by
  simp [sendNibble, uXfer, MicroOp.keepsLc]

/-- Settles O54: the three requests have no gate, no write of `lc_state` and no failure that writes it. -/
theorem busRequestsIgnoreTheLcState : Obligations.BusRequestsIgnoreTheLcState := by
  intro i s t st hi hx
  have h := passive_withLc st
  have ignores : (∀ lc, gate i lc = none) → isLcInit i = false → (∀ p, ∀ op ∈ programOf p i, op.keepsLc = true) →
      exec i (withLc st s) = .next (withLc st t) := fun hgate hinit hkeeps => by
    refine h.exec (fun _ => rfl) (fun _ => by rw [hgate, hgate]) (by simp [hinit]) (fun p op hop => ?_) hx
    refine h.runOp op (fun sel clk _ => h.uBusInit sel clk (fun _ => rfl) (fun _ => rfl) (fun _ => rfl) (fun _ => rfl))
      (fun st' hop' => ?_)
    simpa [hop', MicroOp.keepsLc] using hkeeps p op hop
  rcases hi with hi | ⟨sel, clk, rfl⟩
  · cases i <;> simp only [isBusWrite, Bool.false_eq_true] at hi
    case btWrite addr data => exact ignores (fun _ => rfl) rfl fun p op hop => by rw [List.mem_singleton.1 hop]; rfl
    case ebNibble nib rs rw bl => exact ignores (fun _ => rfl) rfl fun p => sendNibble_keepsLc p _ _ _ _
  · exact ignores (fun _ => rfl) rfl fun p op hop => by rw [List.mem_singleton.1 hop]; rfl

end Sys2Proof.Machine

/-! # Expander Byte Encoder (41_expander_encoder.md R84 to R91) -/

namespace Sys2Proof.Machine

open Sys2Proof Sys2Proof.Claim

/-! ### ENCODE and its fields (R52, R84) -/

@[simp] theorem lineRw_expanderByte (nib : Nibble) (rs rw en bl : Bit) : lineRw (expanderByte nib rs rw en bl) = rw := by
  revert nib rs rw en bl; decide

@[simp] theorem lineBl_expanderByte (nib : Nibble) (rs rw en bl : Bit) : lineBl (expanderByte nib rs rw en bl) = bl := by
  revert nib rs rw en bl; decide

/-- A byte is ENCODE of its own fields. -/
theorem expanderByte_fields (b : Byte) : expanderByte (lineNibble b) (lineRs b) (lineRw b) (lineEn b) (lineBl b) = b := by
  revert b; decide

/-- Settles O4: the fields of a byte are its one tuple. -/
theorem encodeIsABijection : Obligations.EncodeIsABijection := by
  refine ⟨expanderByte_toNat, fun b => ⟨(lineNibble b, lineRs b, lineRw b, lineEn b, lineBl b), expanderByte_fields b, ?_⟩⟩
  rintro ⟨nib, rs, rw, en, bl⟩ rfl
  simp

/-! ### SEND_BYTE (R90, R91) -/

theorem decodeSent_expanderByte (hi lo : Nibble) (rs rw bl : Bit) (b1 b3 : Byte) :
    decodeSent (expanderByte hi rs rw 1 bl) b1 (expanderByte lo rs rw 1 bl) b3 = hi ++ lo := by
  simp [decodeSent]

/-- Bits 3, 2 and 1 of an expander byte are RS, RW and EN. -/
theorem expanderByte_controlBits (nib : Nibble) (rs rw en bl : Bit) :
    (expanderByte nib rs rw en bl).getLsbD 3 = rs.getLsbD 0 ∧ (expanderByte nib rs rw en bl).getLsbD 2 = rw.getLsbD 0 ∧
      (expanderByte nib rs rw en bl).getLsbD 1 = en.getLsbD 0 := by
  simp only [expanderByte, BitVec.getLsbD_append]
  simp

/-- Two expander bytes that differ in EN only agree in every bit but bit 1. -/
theorem expanderByte_bit_of_ne_one (nib : Nibble) (rs rw en en' bl : Bit) {k : Nat} (hk : k ≠ 1) :
    (expanderByte nib rs rw en bl).getLsbD k = (expanderByte nib rs rw en' bl).getLsbD k := by
  rcases k with _ | _ | k
  · simp only [expanderByte, BitVec.getLsbD_append]; simp
  · exact absurd rfl hk
  · simp only [expanderByte, BitVec.getLsbD_append]; simp

/-- Settles O5: the four bytes are `sentBytes`, two pairs that each keep everything but EN. -/
theorem nibbleSplitRoundTrip : Obligations.NibbleSplitRoundTrip := by
  intro p v rs bl
  have pair : ∀ nib : Nibble, let x := (expanderByte nib rs 0 1 bl, expanderByte nib rs 0 0 bl)
      x.1.getLsbD 1 = true ∧ x.2.getLsbD 1 = false ∧ x.1.getLsbD 3 = rs.getLsbD 0 ∧ x.2.getLsbD 3 = rs.getLsbD 0 ∧
        x.1.getLsbD 2 = false ∧ x.2.getLsbD 2 = false ∧ ∀ k ≠ 1, x.1.getLsbD k = x.2.getLsbD k := fun nib => by
    obtain ⟨hrs, hrw, hen⟩ := expanderByte_controlBits nib rs 0 1 bl
    obtain ⟨hrs', hrw', hen'⟩ := expanderByte_controlBits nib rs 0 0 bl
    exact ⟨hen, hen', hrs, hrs', hrw, hrw', fun _ hk => expanderByte_bit_of_ne_one nib rs 0 1 0 bl hk⟩
  refine ⟨_, _, _, _, rfl, sentBytes_toNat v rs bl, ?_, ?_⟩
  · rw [decodeSent_expanderByte, hiNibble_append_loNibble]
  · exact List.forall_mem_cons.2 ⟨pair _, List.forall_mem_singleton.2 (pair _)⟩

/-! ### EB_SEND_NIBBLE (R85) -/

/-- Operands in range are the numbers of a nibble and three bits. -/
theorem exists_fields_of_inRange {ids : BusIds} {nib rs rw bl : Nat} (h : ¬ outOfRange ids (.ebNibble nib rs rw bl)) :
    ∃ (n : Nibble) (s w l : Bit), nib = n.toNat ∧ rs = s.toNat ∧ rw = w.toNat ∧ bl = l.toNat := by
  simp only [outOfRange, not_or, not_lt] at h
  obtain ⟨hn, hs, hw, hl⟩ := h
  exact ⟨.ofNatLT nib (by omega), .ofNatLT rs (by omega), .ofNatLT rw (by omega), .ofNatLT bl (by omega), rfl, rfl, rfl, rfl⟩

variable {s t : State} (p : Params) (nib : Nibble) (rs rw bl : Bit)

theorem programOf_ebNibble :
    programOf p (.ebNibble nib.toNat rs.toNat rw.toNat bl.toNat) = sendNibble p nib rs rw bl := by
  simp [programOf, Instr.asRequest, ebNibbleProgram]

/-- The EN = 1 byte, as the claims write it. -/
theorem expanderByte_one_toNat : nib.toNat * 16 + rs.toNat * 8 + rw.toNat * 4 + 2 + bl.toNat =
    (expanderByte nib rs rw 1 bl).toNat := (expanderByte_toNat nib rs rw 1 bl).symm

/-- The EN = 0 byte, as the claims write it. -/
theorem expanderByte_zero_toNat : nib.toNat * 16 + rs.toNat * 8 + rw.toNat * 4 + bl.toNat =
    (expanderByte nib rs rw 0 bl).toNat := (expanderByte_toNat nib rs rw 0 bl).symm

theorem okNibble_eq_xfers : okNibble p nib rs rw bl = xfers p (nibble nib.toNat rs.toNat rw.toNat bl.toNat) := by
  rw [nibble, expanderByte_one_toNat, expanderByte_zero_toNat]
  exact flatMap_okXfer_eq_xfers p [expanderByte nib rs rw 1 bl, expanderByte nib rs rw 0 bl]

/-- Settles O28: the request has no gate and its micro-program is two writes of one byte each. -/
theorem nibbleIsSentInTwoTransactions : Obligations.NibbleIsSentInTwoTransactions := by
  intro s nib rs rw bl ho hr hv hc
  obtain ⟨nib, rs, rw, bl, rfl, rfl, rfl, rfl⟩ := exists_fields_of_inRange hr
  have hprog := programOf_ebNibble s.params nib rs rw bl
  have hx := exec_eq_ended ho hr rfl hv (by rw [hprog]; exact sendNibble_plain _ _ _ _ _) (by rw [hprog]; exact hc)
  rw [hprog, sendNibble_events, sendNibble_lcAfter, okNibble_eq_xfers] at hx
  exact hx

/-! ### Requests that end with the result of a write (R88, R89) -/

/-- How the micro-operation ends that gives its request the result. -/
def endWith (r : Result) : MicroEnd := if r = .ok then .ok else .fail r

/-- The request `q` goes on after its first micro-operation, with the results returned before it. -/
def goneOn (q : Instr) (results : List Result) (s : State) : State := { advance (accept q s) with results := results }

theorem unread_accept (q : Instr) : Unread (accept q) := by constructor <;> intros <;> rfl

theorem unread_goneOn (q : Instr) (results : List Result) : Unread (goneOn q results) := by
  constructor <;> intros <;> rfl

/-- After a write that leaves the bus idle it makes no difference whether its own request has ended since. -/
theorem goneOn_finish {u : State} (q : Instr) (r : Result) (h : u.core.btPhase = .idle) :
    goneOn q u.results (finish r u) = advance (accept q u) := by
  simp [goneOn, accept, advance, finish, CoreState.idleSeq, h]

section

variable {q : Instr} {addr : Addr7} {data : List Byte} {r : Result} {e : MicroEnd} {f : State → State}

theorem Unread.uWrite_eq (h : Unread f) (hw : Machine.uWrite addr data s = (e, t)) :
    Machine.uWrite addr data (f s) = (e, f t) := by
  rw [h.uWrite, hw]

/-- A write on an initialised bus ends with a result; it returns none to the host. -/
theorem uWrite_endWith (addr : Addr7) (data : List Byte) (hv : s.core.btValid = true) :
    ∃ r u, uWrite addr data s = (endWith r, u) ∧ u.results = s.results := by
  rcases uWrite_cases addr data s with ⟨hv', -⟩ | ⟨-, -, u, hw, hran, -⟩ | ⟨-, u, evs, r, hw, hran, hf⟩
  · simp [hv] at hv'
  · exact ⟨.ok, u, hw, hran.results⟩
  · exact ⟨r, u, by simpa [endWith, hf.ne_ok] using hw, hran.results⟩

/-- A write that completes leaves the bus idle. -/
theorem btPhase_of_uWrite_ok (hw : uWrite addr data s = (.ok, t)) : t.core.btPhase = .idle := by
  rcases uWrite_cases addr data s with ⟨-, h⟩ | ⟨-, -, u, h, -, hi, -⟩ | ⟨-, u, evs, r, h, -⟩ <;>
    simp only [hw, Prod.mk.injEq, reduceCtorEq, false_and, true_and] at h
  exact h ▸ hi

/-- After a write that completes the rest of the micro-program follows. -/
theorem runProgram_write_ok (hw : uWrite addr data s = (.ok, t)) (rest : List MicroOp) :
    runProgram q (.write addr data :: rest) s = runProgram q rest (advance t) := by
  simp only [runProgram, runOp, hw]

variable (hm : s.params.errorMode = .ret) (hq : isLcInit q = false)

include hm hq

/-- With RETURN a write that fails ends a request that is no LC_INIT with its result, whatever would follow. -/
theorem runProgram_write_fail (hw : uWrite addr data s = (.fail r, t)) (rest : List MicroOp) :
    runProgram q (.write addr data :: rest) s = finish r t := by
  have hp : t.params = s.params := by simpa [hw] using (grows_uWrite addr data s).params
  simp [runProgram, runOp, hw, failWith, hp, hm, hq]

/-- With RETURN the last write of a request that is no LC_INIT ends it with the write's result. -/
theorem runProgram_write_last (hw : uWrite addr data s = (endWith r, t)) :
    runProgram q [.write addr data] s = finish r t := by
  by_cases hr : r = .ok
  · subst hr
    rw [runProgram_write_ok hw]
    rfl
  · exact runProgram_write_fail hm hq (by simpa [endWith, hr] using hw) []

end

/-- With RETURN a BT_WRITE that returned a result is a uWRITE that ended with it. -/
theorem uWrite_of_returned {addr : Nat} {data : List Nat} {r : Result}
    (hr : ¬ outOfRange s.params.busIds (.btWrite addr data)) (hm : s.params.errorMode = .ret)
    (hx : exec (.btWrite addr data) s = .next t) (hret : returned s t r) :
    ∃ u, uWrite (BitVec.ofNat 7 addr) (data.map (BitVec.ofNat 8)) s = (endWith r, u) ∧ u.results = s.results ∧
      t = finish r u := by
  have ho := ((exec_next_iff _ s t).1 hx).1
  rw [exec_btWrite ho hr, Host.Outcome.next.injEq] at hx
  subst hx
  rcases hv : s.core.btValid with _ | _
  · rw [runProgram_write_notReady (s := accept _ s) _ _ _ _ hv] at hret
    simp [returned] at hret
  · obtain ⟨r', u, hw, hres⟩ := uWrite_endWith (BitVec.ofNat 7 addr) (data.map (BitVec.ofNat 8)) hv
    have hacc := (unread_accept (.btWrite addr data)).uWrite_eq hw
    have hrun := runProgram_write_last (q := .btWrite addr data) (s := accept _ s) hm rfl hacc
    rw [hrun] at hret ⊢
    obtain rfl : r' = r := by simpa [returned, hres] using hret
    exact ⟨u, hw, hres, rfl⟩

/-- With RETURN a BT_WRITE of one byte to the expander that returned a result is a uXFER that ended with it. -/
theorem uXfer_of_returned {b : Byte} {r : Result} (hm : s.params.errorMode = .ret)
    (hx : exec (.btWrite s.params.slaveAddr.toNat [b.toNat]) s = .next t) (hret : returned s t r) :
    ∃ u, uWrite s.params.slaveAddr [b] s = (endWith r, u) ∧ u.results = s.results ∧ t = finish r u := by
  have hr : ¬ outOfRange s.params.busIds (.btWrite s.params.slaveAddr.toNat [b.toNat]) := by
    simp only [outOfRange, List.mem_singleton, exists_eq_left]
    omega
  simpa using uWrite_of_returned hr hm hx hret

/-- EB_SEND_NIBBLE, which has no gate, is its two writes. -/
theorem exec_ebNibble (ho : s.portOpen = true)
    (hr : ¬ outOfRange s.params.busIds (.ebNibble nib.toNat rs.toNat rw.toNat bl.toNat)) :
    exec (.ebNibble nib.toNat rs.toNat rw.toNat bl.toNat) s = .next
      (runProgram (.ebNibble nib.toNat rs.toNat rw.toNat bl.toNat) (sendNibble s.params nib rs rw bl)
        (accept (.ebNibble nib.toNat rs.toNat rw.toNat bl.toNat) s)) := by
  rw [← programOf_ebNibble]
  exact exec_of_accepted ho (requestOk_of_not_outOfRange hr) rfl

/-- Settles O29: the failing write ends the request as it ends the BT_WRITE. -/
theorem failedFirstWriteEndsTheNibble : Obligations.FailedFirstWriteEndsTheNibble := by
  intro s t nib rs rw bl r hr hm hx hret hne
  obtain ⟨nib, rs, rw, bl, rfl, rfl, rfl, rfl⟩ := exists_fields_of_inRange hr
  have ho := ((exec_next_iff _ s t).1 hx).1
  rw [expanderByte_one_toNat] at hx
  obtain ⟨u, hw, -, rfl⟩ := uXfer_of_returned hm hx hret
  rw [endWith, if_neg hne] at hw
  rw [exec_ebNibble nib rs rw bl ho hr, sendNibble, uXfer,
    runProgram_write_fail (s := accept _ s) hm rfl ((unread_accept _).uWrite_eq hw)]
  rfl

/-- Settles O30: the second write runs from the state that a BT_WRITE of the first byte leaves, but for the sequencer's registers
and the results, which no write reads. -/
theorem secondWriteEndsTheNibble : Obligations.SecondWriteEndsTheNibble := by
  intro s t u nib rs rw bl r hr hm hx hret hx' hret'
  obtain ⟨nib, rs, rw, bl, rfl, rfl, rfl, rfl⟩ := exists_fields_of_inRange hr
  have ho := ((exec_next_iff _ s t).1 hx).1
  obtain ⟨hp, -⟩ := (exec_end hx).2.appendsOnly
  rw [expanderByte_one_toNat] at hx
  rw [expanderByte_zero_toNat, ← hp] at hx'
  obtain ⟨v, hw, hres, rfl⟩ := uXfer_of_returned hm hx hret
  obtain ⟨w, hw', -, rfl⟩ := uXfer_of_returned (by rw [hp]; exact hm) hx' hret'
  rw [hp] at hw'
  have first := (unread_accept (.ebNibble nib.toNat rs.toNat rw.toNat bl.toNat)).uWrite_eq hw
  have second := (unread_goneOn (.ebNibble nib.toNat rs.toNat rw.toNat bl.toNat) v.results).uWrite_eq hw'
  rw [goneOn_finish _ _ (btPhase_of_uWrite_ok hw)] at second
  have hmv : (advance (accept (.ebNibble nib.toNat rs.toNat rw.toNat bl.toNat) v)).params.errorMode = .ret :=
    (congrArg Params.errorMode hp).trans hm
  rw [exec_ebNibble nib rs rw bl ho hr, sendNibble, uXfer, uXfer, runProgram_write_ok first,
    runProgram_write_last hmv rfl second]
  simp [finish, goneOn, hres, CoreState.idleSeq]

end Sys2Proof.Machine

/-! # The LC requests' gate (42_lcd_controller.md R101) -/

namespace Sys2Proof.Machine

open Sys2Proof Sys2Proof.Claim

variable {i : Instr} {s t : State}

/-- A request in range that its gate stops raises the gate's fault and changes nothing else. -/
theorem exec_of_gated {f : FaultKind} (ho : s.portOpen = true) (hr : ¬ outOfRange s.params.busIds i)
    (hg : gate i s.core.lcState = some f) : exec i s = .next (s.faulted f i.asRequest) := by
  simp [exec_of_open i ho, served, requestOk_of_not_outOfRange hr, hg, raiseFault_of_open ho]

theorem gateInit_eq_none {st : LcState} (h : st ≠ .failed) : gateInit st = none := by
  cases st
  case failed => exact absurd rfl h
  all_goals rfl

theorem gateLcd_eq_none {st : LcState} (h : gateLcd st = none) : st = .ready := by
  cases st
  case ready => rfl
  all_goals simp [gateLcd] at h

/-- Which faults a request can raise: its gate's, NOT_READY on a bus that is not initialised, HANDLE_CHANGED of an init. -/
theorem RequestEnd.faults (h : RequestEnd i s t) : t.core.faults = s.core.faults ∨
    ∃ f, t.core.faults = s.core.faults ++ [(f, i.asRequest)] ∧
      (gate i s.core.lcState = some f ∨ (f = .notReady ∧ s.core.btValid = false ∧ busArgs s.params i = none) ∨
        (f = .handleChanged ∧ busArgs s.params i ≠ none)) := by
  cases h with
  | refused | completed => exact .inl rfl
  | busBusy | failed => exact .inl (failWith_faults _ _ _)
  | gated f _ hg => exact .inr ⟨f, rfl, .inl hg⟩
  | notReady _ _ hv hb => exact .inr ⟨_, rfl, .inr (.inl ⟨rfl, hv, hb⟩)⟩
  | handleChanged _ _ _ _ _ hb => exact .inr ⟨_, rfl, .inr (.inr ⟨rfl, by simp [hb]⟩)⟩

/-! ### Commands and characters -/

section

variable (h : (commandCode i).isSome = true ∨ isChars i = true)

include h

/-- A command or characters is one of three requests. -/
theorem asRequest_of_command_or_chars :
    (∃ code, i.asRequest = .lcCmd code) ∨ (∃ ch, i.asRequest = .lcPutc ch) ∨ ∃ text, i.asRequest = .lcPuts text := by
  rcases h with hc | hc
  · obtain ⟨code, hc⟩ := Option.isSome_iff_exists.1 hc
    exact .inl ⟨code, asRequest_of_commandCode hc⟩
  · cases i <;> simp only [isChars, Bool.false_eq_true] at hc
    case lcPutc ch => exact .inr (.inl ⟨ch, rfl⟩)
    case lcPuts text => exact .inr (.inr ⟨text, rfl⟩)

theorem gate_of_command_or_chars (st : LcState) : gate i st = gateLcd st := by
  rcases asRequest_of_command_or_chars h with ⟨_, hq⟩ | ⟨_, hq⟩ | ⟨_, hq⟩ <;> simp [gate, hq]

theorem busArgs_of_command_or_chars (p : Params) : busArgs p i = none := by
  rcases asRequest_of_command_or_chars h with ⟨_, hq⟩ | ⟨_, hq⟩ | ⟨_, hq⟩ <;> simp [busArgs, hq]

theorem isLcInit_of_command_or_chars : isLcInit i = false := by
  rcases asRequest_of_command_or_chars h with ⟨_, hq⟩ | ⟨_, hq⟩ | ⟨_, hq⟩ <;> simp [isLcInit, hq]

end

/-- Settles O31: the gate's fault where it has one; where it has none, what else can fault is uBUSINIT of an LC_INIT. -/
theorem gateOfTheLcRequests : Obligations.GateOfTheLcRequests := by
  intro i s ho hr
  obtain ⟨-, -, -, hfaults⟩ := (portOpen_iff s).1 ho
  constructor
  · rintro sel clk rfl
    refine ⟨fun hl => exec_of_gated ho hr (by rw [hl]; rfl), fun hl t hx => ?_⟩
    have hg : gate (.lcInit sel clk) s.core.lcState = none := gateInit_eq_none hl
    rcases (exec_end hx).2.faults with h | ⟨f, h, hg' | ⟨-, -, hb⟩ | ⟨rfl, -⟩⟩
    · exact .inl (h.trans hfaults)
    · simp [hg] at hg'
    · simp [busArgs, Instr.asRequest] at hb
    · exact .inr (by rw [h, hfaults]; rfl)
  · intro hi
    have hg := gate_of_command_or_chars hi
    have gated : ∀ st f, gateLcd st = some f → s.core.lcState = st → exec i s = .next (s.faulted f i.asRequest) :=
      fun st f hf hl => exec_of_gated ho hr (by rw [hg, hl, hf])
    refine ⟨gated _ _ rfl, gated _ _ rfl, gated _ _ rfl, fun hl hv t hx => ?_⟩
    rcases (exec_end hx).2.faults with h | ⟨f, -, hg' | ⟨-, hv', -⟩ | ⟨-, hb⟩⟩
    · exact h.trans hfaults
    · simp [hg, hl, gateLcd] at hg'
    · simp [hv] at hv'
    · exact absurd (busArgs_of_command_or_chars hi _) hb

end Sys2Proof.Machine

/-! # The first failure ends the request (42_lcd_controller.md R95, R107, R108; 60_exceptions.md R133) -/

namespace Sys2Proof.Machine

open Sys2Proof Sys2Proof.Claim

variable {i : Instr} {s t : State} {r : Result}

theorem returned_unique {r' : Result} (h : returned s t r) (h' : returned s t r') : r = r' := by
  simpa using h.symm.trans h'

/-! ### A failure with ERROR_MODE = RETURN or HANG -/

section

variable {q : Instr} {u : State}

theorem returned_failWith (hm : u.params.errorMode = .ret) : returned u (failWith r q u) r := by
  rw [returned, failWith, hm]
  rcases isLcInit q <;> rfl

theorem failWith_upc_of_hang (hm : u.params.errorMode = .hang) : (failWith r q u).core.upc = u.core.upc := by
  rw [failWith, hm]

theorem failWith_lcState_of_lcInit (hm : u.params.errorMode = .ret) (hq : isLcInit q = true) :
    (failWith r q u).core.lcState = .failed := by
  rw [failWith, hm, if_pos hq]; rfl

/-- With RETURN a failure reopens the port of a core that is neither hung nor quiescent. -/
theorem failWith_portOpen (hm : u.params.errorMode = .ret) (hh : u.core.hung = false) (hr : u.core.refused = false)
    (hf : u.core.faults = []) : (failWith r q u).portOpen = true := by
  rw [portOpen_iff, failWith, hm]
  rcases isLcInit q <;> exact ⟨rfl, hh, hr, hf⟩

end

/-! ### What the sequencer has done by the first failure -/

/-- The first micro-operation of the request `i`, presented in `s`, that fails: its result, and the state `u` it leaves. -/
inductive FirstFailure (i : Instr) (s u : State) : Result → Prop
  /-- uBUSINIT of a busy bus (40_bus_transport.md R69). -/
  | busBusy (hv : s.core.btValid = false) (hi : isInit i = true) (ht : u.core.trace = s.core.trace) :
      FirstFailure i s u .busBusy
  /-- A failing transaction, after micro-operations that complete (40_bus_transport.md R76, R77). -/
  | write (n : Nat) (addr : Addr7) (data : List Byte) (evs : List Event) (r : Result)
      (hn : (programOf s.params i)[n]? = some (.write addr data)) (hf : FailedTransaction addr data evs r)
      (ht : u.core.trace = s.core.trace ++ ((programOf s.params i).take n).flatMap (MicroOp.okEvents s.core.btValid) ++ evs)
      (hupc : u.core.upc = n) : FirstFailure i s u r

theorem isInit_of_busArgs {p : Params} {args : Nat × Nat} (h : busArgs p i = some args) : isInit i = true := by
  cases i <;> simp only [busArgs, Instr.asRequest, reduceCtorEq] at h <;> rfl

/-- A request that returned a result, or hung the core, has passed its gate; it completed or its first failure ended it. -/
theorem RequestEnd.completed_or_firstFailure (h : RequestEnd i s t) (hh : s.core.hung = false)
    (hend : t.core.hung = true ∨ ∃ r, returned s t r) :
    gate i s.core.lcState = none ∧ ((t.core.hung = false ∧ returned s t .ok) ∨
      ∃ u r, t = failWith r i.asRequest u ∧ u.params = s.params ∧ u.results = s.results ∧ FirstFailure i s u r) := by
  cases h with
  | refused | gated | notReady | handleChanged =>
    simp [returned, State.marked, State.faulted, hh] at hend
  | busBusy sel clk _ hg hv hb => exact ⟨hg, .inr ⟨_, _, rfl, rfl, rfl, .busBusy hv (isInit_of_busArgs hb) rfl⟩⟩
  | completed _ _ _ _ _ hg => exact ⟨hg, .inl ⟨hh, rfl⟩⟩
  | failed _ _ _ _ _ n addr data evs r _ _ hg _ _ hn hf =>
    exact ⟨hg, .inr ⟨_, _, rfl, rfl, rfl, .write n addr data evs r hn hf rfl rfl⟩⟩

/-- With RETURN a request that returned a failure result was ended by the first failure, which has that result. -/
theorem RequestEnd.firstFailure_of_returned (h : RequestEnd i s t) (hh : s.core.hung = false)
    (hm : s.params.errorMode = .ret) (hret : returned s t r) (hne : r ≠ .ok) :
    gate i s.core.lcState = none ∧ ∃ u, t = failWith r i.asRequest u ∧ u.params = s.params ∧ FirstFailure i s u r := by
  obtain ⟨hg, ⟨-, hok⟩ | ⟨u, r', rfl, hp, hres, hfirst⟩⟩ := h.completed_or_firstFailure hh (.inr ⟨r, hret⟩)
  · exact absurd (returned_unique hret hok) hne
  · have hret' : returned s (failWith r' i.asRequest u) r' := by
      rw [returned, ← hres]
      exact returned_failWith (hp ▸ hm)
    obtain rfl := returned_unique hret hret'
    exact ⟨hg, u, rfl, hp, hfirst⟩

/-- With RETURN a request that returned a result leaves the port open. -/
theorem RequestEnd.portOpen_of_returned (h : RequestEnd i s t) (ho : s.portOpen = true) (hm : s.params.errorMode = .ret)
    (hret : returned s t r) : t.portOpen = true := by
  obtain ⟨-, hh, hr, hf⟩ := (portOpen_iff s).1 ho
  cases h with
  | refused | gated | notReady | handleChanged => simp [returned, State.marked, State.faulted] at hret
  | busBusy | failed => exact failWith_portOpen hm hh hr hf
  | completed => exact (portOpen_iff _).2 ⟨rfl, hh, hr, hf⟩

theorem FailedTransaction.getLast {addr : Addr7} {data : List Byte} {evs : List Event}
    (h : FailedTransaction addr data evs r) : evs.getLast? = some .stop ∨ evs.getLast? = some .abort := by
  cases h with
  | startStall | addrStall => exact .inr rfl
  | addrNack => exact .inl rfl
  | dataNack => exact .inl (by simp [List.getLast?_cons])
  | dataStall => exact .inr (by simp [List.getLast?_cons])

theorem FailedTransaction.ne_busBusy {addr : Addr7} {data : List Byte} {evs : List Event}
    (h : FailedTransaction addr data evs r) : r ≠ .busBusy := by
  cases h <;> simp

/-- Settles O40: a hung core, and one that returned a failure result, met the first failure and nothing after it. -/
theorem firstFailureEndsTheRequest : Obligations.FirstFailureEndsTheRequest := by
  intro i s t hx hend
  obtain ⟨ho, h⟩ := exec_end hx
  obtain ⟨-, hh, -, -⟩ := (portOpen_iff s).1 ho
  obtain ⟨-, ⟨hh', hok⟩ | ⟨u, r, rfl, hp, hres, hfirst⟩⟩ := h.completed_or_firstFailure hh
    (hend.imp_right fun ⟨r, hret, _⟩ => ⟨r, hret⟩)
  · rcases hend with hend | ⟨r, hret, hne⟩
    · simp [hh'] at hend
    · exact absurd (returned_unique hret hok) hne
  · cases hfirst with
    | busBusy hv hi ht => exact .inl ⟨(failWith_trace _ _ _).trans ht, hi, hv⟩
    | write n addr data evs r hn hf ht hupc =>
      refine .inr ⟨n, addr, data, evs, r, hn, hf, (failWith_trace _ _ _).trans ht, fun hm => ?_, fun hm => ?_⟩
      · rw [returned, ← hres]
        exact returned_failWith (hp ▸ hm)
      · rw [failWith_upc_of_hang (hp ▸ hm), hupc]

/-- Settles O34: the first failure of an LC_INIT leaves FAILED and an open port, where the gate stops every LC request. -/
theorem failedLcInitIsFatal : Obligations.FailedLcInitIsFatal := by
  intro s t sel clk r hm hx hret hne
  obtain ⟨ho, h⟩ := exec_end hx
  obtain ⟨-, hh, -, -⟩ := (portOpen_iff s).1 ho
  have hopen := h.portOpen_of_returned ho hm hret
  obtain ⟨-, u, rfl, hp, hfirst⟩ := h.firstFailure_of_returned hh hm hret hne
  have hl : (failWith r (.lcInit sel clk) u).core.lcState = .failed := failWith_lcState_of_lcInit (hp ▸ hm) rfl
  refine ⟨hl, ?_, fun j hj hlc => exec_of_gated hopen hj ?_⟩
  · rw [failWith_trace]
    cases hfirst with
    | busBusy _ _ ht => exact ⟨[], by simpa using ht, .inl ⟨rfl, rfl⟩⟩
    | write n addr data evs r _ hf ht =>
      refine ⟨_, ht.trans (List.append_assoc _ _ _), .inr ⟨hf.ne_busBusy, ?_⟩⟩
      rcases hf.getLast with h | h <;> simp [List.getLast?_append, h]
  · show gate j (failWith r (.lcInit sel clk) u).core.lcState = some .systemFailed
    rw [hl]
    rcases hlc with hc | hc | ⟨sel', clk', rfl⟩
    · exact gate_of_command_or_chars (.inl hc) _
    · exact gate_of_command_or_chars (.inr hc) _
    · rfl

/-- Settles O39: a command runs in READY only, and its first failure writes no `lc_state`. -/
theorem failedCommandLeavesReady : Obligations.FailedCommandLeavesReady := by
  intro i s t r hi hm hx hret hne
  obtain ⟨ho, h⟩ := exec_end hx
  obtain ⟨-, hh, -, -⟩ := (portOpen_iff s).1 ho
  obtain ⟨hg, -⟩ := h.firstFailure_of_returned hh hm hret hne
  have hl : s.core.lcState = .ready := gateLcd_eq_none (gate_of_command_or_chars hi _ ▸ hg)
  refine ⟨hl, ?_, h.portOpen_of_returned ho hm hret⟩
  rcases h.lcState with h | ⟨-, hok, -⟩ | ⟨hinit, -⟩
  · exact h.trans hl
  · exact absurd (returned_unique hret hok) hne
  · simp [isLcInit_of_command_or_chars hi] at hinit

end Sys2Proof.Machine

/-! # LC_INIT, LC_CMD and LC_PUTC on a clean bus (42_lcd_controller.md R94, R97, R102, R103, R112, R113) -/

namespace Sys2Proof.Machine

open Sys2Proof Sys2Proof.Claim

variable {s t : State} {sel : Nat} {clk : Option Nat}

theorem okInitSequence_eq_initEvents (p : Params) : okInitSequence p = initEvents p := by
  simp only [okInitSequence, initEvents, okNibble_eq_xfers]
  rfl

theorem startsOf_initSequence (p : Params) : startsOf (initSequence p) = 8 := rfl

theorem acksOf_initSequence (p : Params) : acksOf (initSequence p) = 16 := rfl

theorem initSequence_lcAfter (p : Params) (st : LcState) : (initSequence p).foldl MicroOp.lcAfter st = st := rfl

/-- What follows the uBUSINIT of an LC_INIT, on an initialised, clean bus: the init sequence, then READY. -/
theorem runProgram_initSequence (q : Instr) (hv : s.core.btValid = true) (hc : s.clean 8 16 = true) :
    runProgram q (initSequence s.params ++ [.setLc .ready]) s =
      s.ended (initEvents s.params) .ready (s.env.after 8 16) .ok := by
  have hp : ∀ op ∈ initSequence s.params ++ [.setLc .ready], op.isPlain = true :=
    List.forall_mem_append.2 ⟨initSequence_plain _, List.forall_mem_singleton.2 rfl⟩
  have hstarts : startsOf (initSequence s.params ++ [.setLc .ready]) = 8 := by
    rw [startsOf_append, startsOf_initSequence]; rfl
  have hacks : acksOf (initSequence s.params ++ [.setLc .ready]) = 16 := by
    rw [acksOf_append, acksOf_initSequence]; rfl
  have hrun := runProgram_clean q _ s hp hv (by rw [← startsOf, ← acksOf, hstarts, hacks]; exact hc)
  rw [← startsOf, ← acksOf, hstarts, hacks, List.flatMap_append, initSequence_events, okInitSequence_eq_initEvents,
    List.foldl_append, initSequence_lcAfter] at hrun
  simpa [MicroOp.okEvents, MicroOp.lcAfter] using hrun

/-- LC_INIT on a bus that is initialised with its arguments. -/
theorem exec_lcInit_again (ho : s.portOpen = true) (hr : ¬ outOfRange s.params.busIds (.lcInit sel clk))
    (hl : s.core.lcState ≠ .failed) (hc : s.clean 8 16 = true) (hv : s.core.btValid = true) (hsel : sel = s.core.btSel)
    (hclk : clk.getD s.params.clkDefault = s.core.btClk) :
    exec (.lcInit sel clk) s = .next (s.ended (initEvents s.params) .ready (s.env.after 8 16) .ok) := by
  rw [exec_lcInit ho hr hl, runProgram_busInit_same (s := accept _ s) _ _ hv ⟨hsel, hclk⟩]
  exact congrArg _ (runProgram_initSequence (s := advance (accept _ s)) _ hv hc)

/-- Settles O32: uBUSINIT writes the handle or leaves it as it is, and the init sequence follows. -/
theorem lcInitRunsTheInitSequence : Obligations.LcInitRunsTheInitSequence := by
  intro s sel clk ho hr hl hc
  refine ⟨fun hv hi => ?_, exec_lcInit_again ho hr hl hc⟩
  rw [exec_lcInit ho hr hl, runProgram_busInit_idle (s := accept _ s) _ _ hv hi]
  have hrun := runProgram_initSequence (s := advance (emit (.busInit sel (clk.getD s.params.clkDefault))
    (setHandle sel (clk.getD s.params.clkDefault) (askedIdle (accept (.lcInit sel clk) s))))) (.lcInit sel clk) rfl hc
  refine (congrArg _ hrun).trans ?_
  simp [State.ended, CoreState.idleSeq, Env.after, skip_succ, ((portOpen_iff s).1 ho).1]

/-- An LC_INIT that returned OK was in range and leaves READY and the handle of its arguments. -/
theorem RequestEnd.lcInit_returned_ok (h : RequestEnd (.lcInit sel clk) s t) (hok : returned s t .ok) :
    requestOk s.params (.lcInit sel clk) = true ∧ t.core.lcState = .ready ∧ t.core.btValid = true ∧
      t.core.btSel = sel ∧ t.core.btClk = clk.getD s.params.clkDefault := by
  cases h with
  | refused | gated | notReady | handleChanged => simp [returned, State.marked, State.faulted] at hok
  | busBusy => exact absurd hok (not_returned_ok_failWith rfl nofun)
  | failed _ _ _ _ _ _ _ _ _ _ _ _ _ _ _ _ hf => exact absurd hok (not_returned_ok_failWith rfl hf.ne_ok)
  | completed valid sel' clk' e hq hg hh =>
    refine ⟨hq, lcInitProgram_lcAfter s.params sel clk s.core.lcState, ?_⟩
    cases hh with
    | found _ hargs =>
      obtain ⟨hsel, hclk⟩ := hargs sel (clk.getD s.params.clkDefault) rfl
      exact ⟨rfl, hsel.symm, hclk.symm⟩
    | written _ _ _ hb =>
      obtain ⟨hsel, hclk⟩ := Prod.mk.inj (Option.some.inj hb)
      exact ⟨rfl, hsel.symm, hclk.symm⟩
    | unused _ hb => simp [busArgs, Instr.asRequest] at hb

/-- Settles O33: the first LC_INIT leaves the handle of its arguments, with which the second finds the bus initialised. -/
theorem lcInitTwiceIsIdempotent : Obligations.LcInitTwiceIsIdempotent := by
  intro s t sel clk hx hok
  have h := (exec_end hx).2
  obtain ⟨hp, -⟩ := h.appendsOnly
  obtain ⟨hq, hl, hv, hsel, hclk⟩ := h.lcInit_returned_ok hok
  refine ⟨hl, hv, fun u hup ⟨huv, husel, huclk⟩ hul huo huc => ?_⟩
  rw [← hp, ← hup] at hq hclk
  exact exec_lcInit_again huo (not_outOfRange_of_requestOk hq) (by simp [hul]) huc (huv.trans hv) (husel.trans hsel).symm
    (huclk.trans hclk).symm

/-- Settles O35: the command's data bytes, written out. -/
theorem commandIsSentAndDelayed : Obligations.CommandIsSentAndDelayed := by
  intro s code ho hcode hl hv hc
  rw [exec_command (i := .lcCmd code) rfl hcode ho hl hv hc]
  simp [command, logicalByte, nibble]

/-- Settles O37: LC_PUTC of any byte. -/
theorem characterIsSentAndDelayed : Obligations.CharacterIsSentAndDelayed :=
  fun _ _ ho hch => exec_lcPutc hch ho

end Sys2Proof.Machine

/-! # Minimum durations (42_lcd_controller.md R96; 70_reset_and_hazards.md R157, R158) -/

namespace Sys2Proof.Machine

open Sys2Proof Sys2Proof.Claim

variable (p : Params)

theorem traceDelayMin_append (xs ys : List Event) :
    traceDelayMin p (xs ++ ys) = traceDelayMin p xs + traceDelayMin p ys := by
  induction xs with
  | nil => exact (Nat.zero_add _).symm
  | cons e xs ih => cases e <;> simp [traceDelayMin, ih, Nat.add_assoc]

theorem traceBits_append (xs ys : List Event) : traceBits (xs ++ ys) = traceBits xs + traceBits ys := by
  induction xs with
  | nil => exact (Nat.zero_add _).symm
  | cons e xs ih => cases e <;> simp [traceBits, ih, Nat.add_assoc]

/-- Two traces one after the other on a 100 kHz bus take the sum of their times: a bit period is 10 microseconds (R157). -/
theorem traceMin_append (xs ys : List Event) :
    traceMin p 100000 (xs ++ ys) = traceMin p 100000 xs + traceMin p 100000 ys := by
  simp only [traceMin, traceDelayMin_append, traceBits_append]
  omega

theorem traceMin_delay (cls : DelayClass) (clk : Nat) : traceMin p clk [.delay cls] = delayMin p cls := by
  simp [traceMin, traceDelayMin, traceBits]

/-- A trace made of parts that each take the same time. -/
theorem traceMin_flatMap {f : Nat → List Event} {m : Nat} (h : ∀ b, traceMin p 100000 (f b) = m) (data : List Nat) :
    traceMin p 100000 (data.flatMap f) = m * data.length := by
  induction data with
  | nil => simp [traceMin, traceDelayMin, traceBits]
  | cons b data ih => rw [List.flatMap_cons, traceMin_append, h, ih, List.length_cons, Nat.mul_succ, Nat.add_comm]

/-- A byte slot takes 9 bit periods (R157). -/
theorem traceMin_byte (b : Byte) (a : Ack) : traceMin p 100000 [.byte b a] = 90 := by
  simp [traceMin, traceDelayMin, traceBits]

theorem traceMin_bytes (data : List Nat) :
    traceMin p 100000 (data.map fun b => .byte (BitVec.ofNat 8 b) .ack) = 90 * data.length := by
  rw [List.map_eq_flatMap]
  exact traceMin_flatMap p (fun b => traceMin_byte p _ _) data

theorem traceMin_transaction (addr : Nat) (data : List Nat) :
    traceMin p 100000 (transaction addr data) = 90 * (data.length + 1) := by
  have hhead : traceMin p 100000 [.start, .byte (BitVec.ofNat 8 (addr * 2)) .ack] = 90 :=
    traceMin_byte p (BitVec.ofNat 8 (addr * 2)) .ack
  have hstop : traceMin p 100000 [.stop] = 0 := by simp [traceMin, traceDelayMin, traceBits]
  rw [transaction, traceMin_append, traceMin_append, traceMin_bytes, hhead, hstop]
  omega

theorem traceMin_xfers (data : List Nat) : traceMin p 100000 (xfers p data) = 180 * data.length :=
  traceMin_flatMap p (fun b => traceMin_transaction p _ [b]) data

theorem traceMin_nibble (nib rs rw bl : Nat) : traceMin p 100000 (xfers p (nibble nib rs rw bl)) = 360 :=
  traceMin_xfers p _

theorem traceMin_logicalByte (v rs bl : Nat) : traceMin p 100000 (xfers p (logicalByte v rs bl)) = 720 :=
  traceMin_xfers p _

theorem traceMin_command (code : Nat) : traceMin p 100000 (command p code) = 720 + delayMin p (delayOf code) := by
  rw [command, traceMin_append, traceMin_logicalByte, traceMin_delay]

theorem traceMin_character (ch : Nat) : traceMin p 100000 (character p ch) = 720 + p.tShortMin := by
  rw [character, traceMin_append, traceMin_logicalByte, traceMin_delay]; rfl

theorem traceMin_initEvents : traceMin p 100000 (initEvents p) =
    p.tPoweronMin + 360 + p.tInit1Min + 360 + p.tInit2Min + 360 + p.tShortMin + 360 + p.tShortMin := by
  simp only [initEvents, traceMin_append, traceMin_nibble, traceMin_delay, delayMin]

/-- Settles O56: the times of the parts with the default minima. -/
theorem minimumDurations : Obligations.MinimumDurations := by
  intro p hshort hlong hpoweron hinit1 hinit2
  have hchar : ∀ ch, traceMin p 100000 (character p ch) = 760 := fun ch => by rw [traceMin_character, hshort]
  refine ⟨by rw [traceMin_initEvents, hshort, hpoweron, hinit1, hinit2], fun code _ => ?_, fun ch _ => hchar ch,
    traceMin_flatMap p hchar, traceMin_nibble p, traceMin_transaction p⟩
  rw [traceMin_command, delayOf]
  split
  · rw [delayMin, hlong]
  · rw [delayMin, hshort]

end Sys2Proof.Machine

/-! # The end of a request (60_exceptions.md R126 to R133; 40_bus_transport.md R81) -/

namespace Sys2Proof.Machine

open Sys2Proof Sys2Proof.Claim

variable {i : Instr} {s t u : State} {r : Result}

/-! ### A fault (R129) -/

/-- A request that leaves a fault, presented at an open port, has raised it and changed nothing else. -/
theorem RequestEnd.eq_faulted (h : RequestEnd i s t) (ho : s.portOpen = true) (hf : t.core.faults ≠ []) :
    ∃ f, t = s.faulted f i.asRequest := by
  obtain ⟨-, -, -, hs⟩ := (portOpen_iff s).1 ho
  cases h with
  | gated | notReady | handleChanged => exact ⟨_, rfl⟩
  | refused | completed => exact absurd hs hf
  | busBusy | failed => exact absurd hs (by simpa using hf)

/-- Settles O41: the ends that leave a fault are `faulted`, and a fault closes a port that is neither hung nor refused. -/
theorem faultChangesNothingElse : Obligations.FaultChangesNothingElse := by
  intro i s t hx hf
  obtain ⟨ho, hend⟩ := exec_end hx
  obtain ⟨-, hh, hr, -⟩ := (portOpen_iff s).1 ho
  obtain ⟨f, rfl⟩ := hend.eq_faulted ho hf
  exact ⟨f, rfl, fun j => exec_of_haltFault j (haltFault_of_faulted hh hr hf)⟩

/-! ### The results of a request (R127) -/

section

variable {addr : Addr7} {data : List Byte} {evs : List Event}

theorem FailedTransaction.result (h : FailedTransaction addr data evs r) :
    r = .nackAddr ∨ (∃ k < data.length, r = .nackData k) ∨ r = .timeout .start ∨ r = .timeout .addr ∨
      ∃ k < data.length, r = .timeout (.data k) := by
  cases h with
  | startStall => exact .inr (.inr (.inl rfl))
  | addrNack => exact .inl rfl
  | addrStall => exact .inr (.inr (.inr (.inl rfl)))
  | dataNack pre b post hd => exact .inr (.inl ⟨pre.length, by simp [hd], rfl⟩)
  | dataStall pre b post hd => exact .inr (.inr (.inr (.inr ⟨pre.length, by simp [hd], rfl⟩)))

/-- Every transaction of the program has one data byte at most, as a uXFER has (40_bus_transport.md R80). -/
def SendsSingly (program : List MicroOp) : Prop := ∀ op ∈ program, op.acks ≤ 2

/-- A transaction of one data byte at most can fail at byte 0 only. -/
theorem FailedTransaction.result_of_singly (h : FailedTransaction addr data evs r) {program : List MicroOp}
    (hs : SendsSingly program) (hop : .write addr data ∈ program) :
    r = .nackAddr ∨ r = .nackData 0 ∨ r = .timeout .start ∨ r = .timeout .addr ∨ r = .timeout (.data 0) := by
  have hlen : data.length + 1 ≤ 2 := hs _ hop
  have zero : ∀ {k}, k < data.length → k = 0 := by omega
  rcases h.result with h | ⟨k, hk, h⟩ | h | h | ⟨k, hk, h⟩
  · exact .inl h
  · exact .inr (.inl (zero hk ▸ h))
  · exact .inr (.inr (.inl h))
  · exact .inr (.inr (.inr (.inl h)))
  · exact .inr (.inr (.inr (.inr (zero hk ▸ h))))

theorem sendsSingly_append {xs ys : List MicroOp} : SendsSingly (xs ++ ys) ↔ SendsSingly xs ∧ SendsSingly ys :=
  List.forall_mem_append

theorem sendsSingly_nil : SendsSingly [] := List.forall_mem_nil _

/-- A micro-operation that is no uWRITE sends nothing. -/
theorem sendsSingly_of_noAcks {op : MicroOp} (h : op.acks = 0) : SendsSingly [op] := by
  simp [SendsSingly, h]

theorem sendNibble_sendsSingly (p : Params) (nib : Nibble) (rs rw bl : Bit) : SendsSingly (sendNibble p nib rs rw bl) := by
  simp [SendsSingly, sendNibble, uXfer, MicroOp.acks]

theorem sendByte_sendsSingly (p : Params) (v : Byte) (rs bl : Bit) : SendsSingly (sendByte p v rs bl) :=
  sendsSingly_append.2 ⟨sendNibble_sendsSingly p _ rs 0 bl, sendNibble_sendsSingly p _ rs 0 bl⟩

theorem lcCmdProgram_sendsSingly (p : Params) (code : Byte) : SendsSingly (lcCmdProgram p code) := by
  refine sendsSingly_append.2 ⟨sendsSingly_append.2 ⟨sendByte_sendsSingly p code 0 p.bl, sendsSingly_of_noAcks rfl⟩, ?_⟩
  split
  · exact sendsSingly_of_noAcks rfl
  · exact sendsSingly_nil

theorem putcProgram_sendsSingly (p : Params) (ch : Byte) : SendsSingly (putcProgram p ch) :=
  sendsSingly_append.2 ⟨sendByte_sendsSingly p ch 1 p.bl, sendsSingly_of_noAcks rfl⟩

theorem putsProgram_sendsSingly (p : Params) (text : List Nat) : SendsSingly (putsProgram p text) := by
  intro op h
  obtain ⟨c, -, hc⟩ := List.mem_flatMap.1 h
  exact putcProgram_sendsSingly p c op hc

theorem lcInitProgram_sendsSingly (p : Params) (sel : Nat) (clk : Option Nat) : SendsSingly (lcInitProgram p sel clk) := by
  have busInit : SendsSingly [.busInit sel (effectiveClk p clk)] := sendsSingly_of_noAcks rfl
  have delay (cls : DelayClass) : SendsSingly [.delay cls] := sendsSingly_of_noAcks rfl
  have ready : SendsSingly [.setLc .ready] := sendsSingly_of_noAcks rfl
  simp only [lcInitProgram, initSequence, sendsSingly_append, sendNibble_sendsSingly, busInit, delay, ready, and_self]

theorem canReturn_asRequest (i : Instr) (r : Result) : canReturn i.asRequest r ↔ canReturn i r := by
  cases i <;> rfl

/-- A transaction of a request's micro-program fails with a result of the request's own list. -/
theorem canReturn_of_failedTransaction {p : Params} (hop : .write addr data ∈ programOf p i)
    (hf : FailedTransaction addr data evs r) : canReturn i r := by
  rw [← canReturn_asRequest]
  unfold programOf at hop
  generalize i.asRequest = q at hop
  cases q <;> simp only at hop
  case btInit sel clk => simp [btInitProgram] at hop
  case btWrite a d =>
    obtain ⟨-, rfl⟩ : addr = BitVec.ofNat 7 a ∧ data = d.map (BitVec.ofNat 8) := by simpa [btWriteProgram] using hop
    exact .inr (by simpa using hf.result)
  case ebNibble nib rs rw bl => exact .inr (hf.result_of_singly (sendNibble_sendsSingly p _ _ _ _) hop)
  case lcInit sel clk => exact .inr (.inr (hf.result_of_singly (lcInitProgram_sendsSingly p sel clk) hop))
  case lcCmd code => exact .inr (hf.result_of_singly (lcCmdProgram_sendsSingly p _) hop)
  case lcPutc ch => exact .inr (hf.result_of_singly (putcProgram_sendsSingly p _) hop)
  case lcPuts text => exact .inr (hf.result_of_singly (putsProgram_sendsSingly p text) hop)
  all_goals simp at hop

end

theorem canReturn_busBusy (h : isInit i = true) : canReturn i .busBusy := by
  cases i <;> simp only [isInit, Bool.false_eq_true] at h
  case btInit => exact .inr rfl
  case lcInit => exact .inr (.inl rfl)

/-- Every request that the port takes can return OK; a reserved header is not taken (30_encoding.md R50). -/
theorem canReturn_ok {p : Params} (hq : requestOk p i.asRequest = true) : canReturn i .ok := by
  cases i
  case reserved => simp [requestOk, Instr.asRequest, Instr.wellFormed] at hq
  all_goals exact .inl rfl

/-! ### The one outcome of a request (R126, R133) -/

/-- A failure of a request that has left the results and the marks alone returns its result, or hangs the
core in HANG mode. -/
theorem failWith_outcome (q : Instr) (hm : u.Unmarked) (hres : u.results = s.results) (hp : u.params = s.params)
    (hc : canReturn i r) :
    ((∃ r', returned s (failWith r q u) r' ∧ canReturn i r') ∧ (failWith r q u).core.faults = [] ∧
      (failWith r q u).core.refused = false ∧ (failWith r q u).core.hung = false) ∨
    ((failWith r q u).results = s.results ∧ (failWith r q u).core.faults = [] ∧
      (failWith r q u).core.refused = false ∧ (failWith r q u).core.hung = true ∧ s.params.errorMode = .hang) := by
  obtain ⟨hh, hr, hf⟩ := hm
  simp only [failWith_faults, failWith_refused, returned, ← hres, ← hp]
  rcases failWith_cases r q u with ⟨hmode, h⟩ | ⟨-, h⟩ <;> rw [h]
  · exact .inr ⟨rfl, hf, hr, rfl, hmode⟩
  · left
    rcases isLcInit q <;> exact ⟨⟨r, rfl, hc⟩, hf, hr, hh⟩

/-- Settles O42: every end of a request is one of the four, and the results are those of its uBUSINIT and its transactions. -/
theorem oneOutcomePerRequest : Obligations.OneOutcomePerRequest := by
  intro i s t hx
  obtain ⟨ho, hend⟩ := exec_end hx
  have hm := State.unmarked_of_open ho
  have ⟨hh, hr, hf⟩ := hm
  cases hend with
  | refused => exact .inr (.inr (.inl ⟨rfl, hf, rfl, hh⟩))
  | gated | notReady | handleChanged =>
    exact .inr (.inl ⟨rfl, ⟨_, congrArg (· ++ [_]) hf⟩, hr, hh⟩)
  | completed _ _ _ _ hq => exact .inl ⟨⟨.ok, rfl, canReturn_ok hq⟩, hf, hr, hh⟩
  | busBusy _ _ _ _ _ hb =>
    exact Or.imp_right (.inr ∘ .inr) (failWith_outcome _ hm rfl rfl (canReturn_busBusy (isInit_of_busArgs hb)))
  | failed _ _ _ _ _ _ _ _ _ _ _ _ _ _ _ hn hft =>
    exact Or.imp_right (.inr ∘ .inr)
      (failWith_outcome _ hm rfl rfl (canReturn_of_failedTransaction (List.mem_of_getElem? hn) hft))

/-! ### HANG and RETURN (R132, R81) -/

/-- The request that `s` has accepted is still being served in `u`: it has returned nothing yet. -/
structure StillServing (s u : State) : Prop where
  busy : u.core.seqBusy = s.core.seqBusy
  request : u.core.curReq = s.core.curReq
  params : u.params = s.params
  results : u.results = s.results

theorem StillServing.trans (h : StillServing s t) (h' : StillServing t u) : StillServing s u :=
  ⟨h'.busy.trans h.busy, h'.request.trans h.request, h'.params.trans h.params, h'.results.trans h.results⟩

theorem runOp_results (op : MicroOp) (s : State) : (runOp op s).2.results = s.results := by
  cases op with
  | busInit sel clk =>
    simp only [runOp]
    rcases uBusInit_cases sel clk s with ⟨-, -, -, h⟩ | ⟨-, -, h⟩ | ⟨-, -, h⟩ | ⟨-, -, h⟩ <;> rw [h] <;> rfl
  | write addr data =>
    simp only [runOp]
    rcases uWrite_cases addr data s with ⟨-, h⟩ | ⟨-, -, t, h, hran, -, -⟩ | ⟨-, t, _, _, h, hran, -⟩ <;> rw [h]
    · exact hran.results
    · exact hran.results
  | delay | setLc => rfl

theorem stillServing_runOp (op : MicroOp) (s : State) : StillServing s (runOp op s).2 := by
  obtain ⟨hbusy, -, hreq, -⟩ := runOp_sequencer op s
  exact ⟨hbusy, hreq, (grows_runOp op s).params, runOp_results op s⟩

/-- No micro-operation fails with OK. -/
theorem runOp_fail_ne_ok {op : MicroOp} (h : runOp op s = (.fail r, t)) : r ≠ .ok := by
  cases op with
  | busInit sel clk =>
    rcases uBusInit_cases sel clk s with ⟨-, -, -, h'⟩ | ⟨-, -, h'⟩ | ⟨-, -, h'⟩ | ⟨-, -, h'⟩ <;>
      simp only [runOp, h', Prod.mk.injEq, MicroEnd.fail.injEq, reduceCtorEq, false_and] at h
    exact h.1 ▸ nofun
  | write addr data =>
    rcases uWrite_cases addr data s with ⟨-, h'⟩ | ⟨-, -, u, h', -⟩ | ⟨-, u, evs, r', h', -, hf⟩ <;>
      simp only [runOp, h', Prod.mk.injEq, MicroEnd.fail.injEq, reduceCtorEq, false_and] at h
    exact h.1 ▸ hf.ne_ok
  | delay | setLc => simp [runOp, uDelay] at h

/-- No micro-operation reads the error mode. -/
theorem runOp_withMode (m : ErrorMode) (op : MicroOp) (s : State) :
    runOp op (withMode m s) = ((runOp op s).1, withMode m (runOp op s).2) := by
  have h : Unread (withMode m) := unread_params fun p => { p with errorMode := m }
  exact h.runOp op
    (fun sel clk _ => h.uBusInit sel clk (fun _ => rfl) (fun _ => rfl) (fun _ => rfl) (fun _ => rfl)) (fun _ _ _ => rfl) s

/-- How the request `q`, being served in `s`, ends with the error mode of `s` and how it ends with the mode `m`: alike, with no
failure result, or with the same failure in the same state. -/
inductive BothEnds (m : ErrorMode) (q : Instr) (s : State) : State → State → Prop
  | alike (t : State) (hok : ∀ r, returned s t r → r = .ok) : BothEnds m q s t (withMode m t)
  | failed (r : Result) (u : State) (hne : r ≠ .ok) (hs : StillServing s u) :
      BothEnds m q s (failWith r q u) (failWith r q (withMode m u))

theorem BothEnds.of_stillServing {m : ErrorMode} {q : Instr} {t t' : State} (h : BothEnds m q u t t') (hs : StillServing s u) :
    BothEnds m q s t t' := by
  cases h with
  | alike _ hok => exact .alike t fun r hr => hok r (hr.trans (by rw [hs.results]))
  | failed r v hne hs' => exact .failed r v hne (hs.trans hs')

theorem runProgram_bothEnds (m : ErrorMode) (q : Instr) (program : List MicroOp) (s : State) :
    BothEnds m q s (runProgram q program s) (runProgram q program (withMode m s)) := by
  induction program generalizing s with
  | nil => exact .alike (finish .ok s) fun r hr => returned_unique hr rfl
  | cons op rest ih =>
    have hmode := runOp_withMode m op s
    have hs := stillServing_runOp op s
    rcases hr : runOp op s with ⟨_ | r | f, t⟩ <;> rw [hr] at hmode hs <;> simp only [runProgram, hr, hmode]
    · exact (ih (advance t)).of_stillServing ⟨hs.busy, hs.request, hs.params, hs.results⟩
    · exact .failed r t (runOp_fail_ne_ok hr) hs
    · exact .alike (raiseFault f q t) fun r' hret => by
        rw [returned, raiseFault_results, hs.results] at hret
        simp at hret

theorem served_bothEnds (m : ErrorMode) (q : Instr) (program : List MicroOp) (s : State) :
    BothEnds m q (accept q s) (served q program s) (served q program (withMode m s)) := by
  have hq : requestOk (withMode m s).params q = requestOk s.params q := rfl
  have hg : gate q (withMode m s).core.lcState = gate q s.core.lcState := rfl
  unfold served
  rw [hq, hg]
  split
  · split
    · next f _ => exact .alike (raiseFault f q (accept q s)) fun r hret => by simp [returned] at hret
    · exact runProgram_bothEnds m q program (accept q s)
  · exact .alike (refuse s) fun r hret => by simp [returned] at hret

theorem exec_bothEnds (m : ErrorMode) (hx : exec i s = .next t) :
    ∃ u, exec i (withMode m s) = .next u ∧ BothEnds m i.asRequest (accept i.asRequest s) t u := by
  obtain ⟨ho, rfl⟩ := (exec_next_iff i s t).1 hx
  exact ⟨_, exec_of_open i (s := withMode m s) ho, served_bothEnds m i.asRequest (programOf s.params i) s⟩

/-- A request that returned nothing has left `lc_state` as it was. -/
theorem RequestEnd.lcState_of_results_eq (h : RequestEnd i s t) (hres : t.results = s.results) :
    t.core.lcState = s.core.lcState := by
  have not_returned : ∀ r, ¬ returned s t r := fun r hr => by simp [returned, hres] at hr
  rcases h.lcState with h | ⟨-, hr, -⟩ | ⟨-, -, r, hr, -⟩
  · exact h
  · exact absurd hr (not_returned _)
  · exact absurd hr (not_returned r)

/-- Settles O43: the runs in both modes do the same up to the first failure, which RETURN returns and HANG hangs on. -/
theorem hangShowsWhatReturnShows : Obligations.HangShowsWhatReturnShows := by
  intro i s t hm hx
  obtain ⟨u, hu, hboth⟩ := exec_bothEnds .hang hx
  have hend := (exec_end hu).2
  refine ⟨u, hu, ?_⟩
  cases hboth with
  | alike _ hok => exact ⟨rfl, rfl, ⟨rfl, rfl, rfl⟩, rfl, rfl, fun r hr hne => absurd (hok r hr) hne, fun _ => rfl⟩
  | failed r v hne hs =>
    have hret : returned s (failWith r i.asRequest v) r := by
      rw [returned, ← show v.results = s.results from hs.results]
      exact returned_failWith (hs.params ▸ hm)
    obtain ⟨hv, hsel, hclk⟩ := sameHandle_failWith r i.asRequest v
    refine ⟨(failWith_trace r _ v).symm, (failWith_env r _ v).symm, ⟨hv.symm, hsel.symm, hclk.symm⟩,
      (failWith_faults r _ v).symm, (failWith_refused r _ v).symm, fun _ _ _ => ?_, fun hok => absurd (hok r hret) hne⟩
    exact ⟨rfl, hs.busy, hs.request, hs.results, hend.lcState_of_results_eq hs.results,
      fun hn => (haltedCoreHasNoStep _ hn).1 rfl⟩

end Sys2Proof.Machine
